-- ==== Sys2Proof/Word.lean ====
section
/-! DEFINITION. The word types: a byte, a register number, an interrupt line number. -/

namespace Sys2Proof

/-- A general register, a memory cell, FL, an operand byte: 8 bits, unsigned (R5 `XLEN`, R6). -/
abbrev Byte := BitVec 8

/-- The number of one of the 8 general registers R0 to R7 (R5 `NREG`, R10). -/
abbrev Reg := Fin 8

/-- The number of one of the 8 interrupt lines (R5 `NLINES`, R170). -/
abbrev Line := Fin 8

end Sys2Proof
end

