-- ==== Sys2Proof/Syntax.lean ====
section
/-! DEFINITION. The instruction set: the 34 instructions of R2, one constructor for each row of
spec/opcode_table.json, in the order of its families. An operand is the operand byte as fetched (R52): whether a
register operand names a register is checked by `RegIdx` when the instruction executes (R54), not by the decoder. -/

namespace Sys2Proof

/-- An instruction with its operand bytes: `a` at `pc0 + 1`, `b` at `pc0 + 2` (R52, R53). -/
inductive Instr where
  | add (a b : Byte)
  | sub (a b : Byte)
  | mul (a b : Byte)
  | div (a b : Byte)
  | mod (a b : Byte)
  | and (a b : Byte)
  | or (a b : Byte)
  | xor (a b : Byte)
  | shl (a b : Byte)
  | shr (a b : Byte)
  | inc (a : Byte)
  | dec (a : Byte)
  | not (a : Byte)
  | cmp (a b : Byte)
  /-- The only instruction with an immediate: operand b (R55). -/
  | ldi (a b : Byte)
  | ld (a b : Byte)
  | st (a b : Byte)
  | push (a : Byte)
  | pop (a : Byte)
  | jmp (a : Byte)
  | jeq (a : Byte)
  | jne (a : Byte)
  | jgt (a : Byte)
  | jge (a : Byte)
  | jlt (a : Byte)
  | jle (a : Byte)
  | call (a : Byte)
  | ret
  | int (a : Byte)
  | iret
  | hlt
  | nop
  | prn (a : Byte)
  | pra (a : Byte)
  deriving DecidableEq, Repr

/-- The three dispatch categories of the opcode table (R9, R56, R57). -/
inductive Category where
  | alu
  | dataOrStack
  | controlFlow
  deriving DecidableEq, Repr

end Sys2Proof
end

