-- ==== Sys2Proof/WellFormed.lean ====
section
/-! DEFINITION. Well-formed instructions: every register operand names a register (R53, R54). An instruction that
is not well-formed decodes and then raises `Undefined(RegisterIndex)` when it executes. -/

namespace Sys2Proof

/-- An operand byte names a register exactly when it is at most 7 (R54). -/
abbrev NamesReg (v : Byte) : Prop := v.toNat < 8

/-- The operand bytes of an instruction that are register indices, in the order a then b (R53). -/
def Instr.regOperands : Instr → List Byte
  | .add a b | .sub a b | .mul a b | .div a b | .mod a b => [a, b]
  | .and a b | .or a b | .xor a b | .shl a b | .shr a b | .cmp a b => [a, b]
  | .inc a | .dec a | .not a => [a]
  | .ldi a _ => [a]
  | .ld a b | .st a b => [a, b]
  | .push a | .pop a => [a]
  | .jmp a | .jeq a | .jne a | .jgt a | .jge a | .jlt a | .jle a | .call a => [a]
  | .int a | .prn a | .pra a => [a]
  | .ret | .iret | .hlt | .nop => []

/-- Every register operand of the instruction names a register. -/
abbrev Instr.WellFormed (i : Instr) : Prop := ∀ v ∈ i.regOperands, NamesReg v

end Sys2Proof
end

