-- ==== Sys2Proof/Decode.lean ====
section
/-! DEFINITION. The opcode map (R56), the decoder (R58, R59, R73 to R75) and the encoder (R50, R56).
The opcode byte values, the operand counts and the categories are the parameter `OPCODE_MAP` (D1, D2, D3):
UNVERIFIED, unsafe (log 1). The decoder takes the map as an argument and reads nothing else from the opcode byte. -/

namespace Sys2Proof

/-- The three instruction formats of R50, each with the instruction it makes of its operand bytes. -/
inductive Format where
  | f0 (i : Instr)
  | f1 (mk : Byte → Instr)
  | f2 (mk : Byte → Byte → Instr)

/-- The operand count of a format (R50). -/
def Format.count : Format → Nat
  | .f0 _ => 0
  | .f1 _ => 1
  | .f2 _ => 2

/-- One row of the opcode table (R56): the opcode byte and its descriptor {mnemonic, operand count, category};
the count is the format's. -/
structure OpcodeRow where
  opcode : Byte
  mnemonic : String
  format : Format
  category : Category

/-- The rows of R56 with format F0. -/
def opcodeRowsF0 : List OpcodeRow :=
  [⟨0x00, "NOP", .f0 .nop, .dataOrStack⟩,
   ⟨0x01, "HLT", .f0 .hlt, .dataOrStack⟩,
   ⟨0x11, "RET", .f0 .ret, .controlFlow⟩,
   ⟨0x13, "IRET", .f0 .iret, .controlFlow⟩]

/-- The rows of R56 with format F1. -/
def opcodeRowsF1 : List OpcodeRow :=
  [⟨0x45, "PUSH", .f1 .push, .dataOrStack⟩,
   ⟨0x46, "POP", .f1 .pop, .dataOrStack⟩,
   ⟨0x47, "PRN", .f1 .prn, .dataOrStack⟩,
   ⟨0x48, "PRA", .f1 .pra, .dataOrStack⟩,
   ⟨0x50, "CALL", .f1 .call, .controlFlow⟩,
   ⟨0x52, "INT", .f1 .int, .controlFlow⟩,
   ⟨0x54, "JMP", .f1 .jmp, .controlFlow⟩,
   ⟨0x55, "JEQ", .f1 .jeq, .controlFlow⟩,
   ⟨0x56, "JNE", .f1 .jne, .controlFlow⟩,
   ⟨0x57, "JGT", .f1 .jgt, .controlFlow⟩,
   ⟨0x58, "JLT", .f1 .jlt, .controlFlow⟩,
   ⟨0x59, "JLE", .f1 .jle, .controlFlow⟩,
   ⟨0x5A, "JGE", .f1 .jge, .controlFlow⟩,
   ⟨0x65, "INC", .f1 .inc, .alu⟩,
   ⟨0x66, "DEC", .f1 .dec, .alu⟩,
   ⟨0x69, "NOT", .f1 .not, .alu⟩]

/-- The rows of R56 with format F2. -/
def opcodeRowsF2 : List OpcodeRow :=
  [⟨0x82, "LDI", .f2 .ldi, .dataOrStack⟩,
   ⟨0x83, "LD", .f2 .ld, .dataOrStack⟩,
   ⟨0x84, "ST", .f2 .st, .dataOrStack⟩,
   ⟨0xA0, "ADD", .f2 .add, .alu⟩,
   ⟨0xA1, "SUB", .f2 .sub, .alu⟩,
   ⟨0xA2, "MUL", .f2 .mul, .alu⟩,
   ⟨0xA3, "DIV", .f2 .div, .alu⟩,
   ⟨0xA4, "MOD", .f2 .mod, .alu⟩,
   ⟨0xA7, "CMP", .f2 .cmp, .alu⟩,
   ⟨0xA8, "AND", .f2 .and, .alu⟩,
   ⟨0xAA, "OR", .f2 .or, .alu⟩,
   ⟨0xAB, "XOR", .f2 .xor, .alu⟩,
   ⟨0xAC, "SHL", .f2 .shl, .alu⟩,
   ⟨0xAD, "SHR", .f2 .shr, .alu⟩]

/-- `OPCODE_MAP` with the values of R56 (D1, log 1). -/
def opcodeMap : List OpcodeRow := opcodeRowsF0 ++ opcodeRowsF1 ++ opcodeRowsF2

/-- Why an instruction cannot be decoded. -/
inductive DecodeError where
  /-- The byte `k` of the instruction (0 the opcode, 1 operand a, 2 operand b) is not there to be fetched (R73, R75). -/
  | missingByte (k : Nat)
  /-- The opcode byte has no row in the opcode table (R59, R74). -/
  | unrecognizedOpcode (op : Byte)
  deriving DecidableEq, Repr

/-- The row of the opcode table for an opcode byte: the whole byte is the key (R50, R56, R58). -/
def lookupOpcode (map : List OpcodeRow) (op : Byte) : Option OpcodeRow :=
  map.find? fun row => row.opcode == op

/-- Decode the instruction whose byte `k` is `byteAt k` where there is one. The order is that of R78: the opcode byte,
its row, operand a, operand b, and only as many operand bytes as the row's count (R75). -/
def decodeFrom (map : List OpcodeRow) (byteAt : Nat → Option Byte) : Except DecodeError Instr :=
  match byteAt 0 with
  | none => .error (.missingByte 0)
  | some op =>
    match lookupOpcode map op with
    | none => .error (.unrecognizedOpcode op)
    | some row =>
      match row.format with
      | .f0 i => .ok i
      | .f1 mk =>
        match byteAt 1 with
        | none => .error (.missingByte 1)
        | some a => .ok (mk a)
      | .f2 mk =>
        match byteAt 1 with
        | none => .error (.missingByte 1)
        | some a =>
          match byteAt 2 with
          | none => .error (.missingByte 2)
          | some b => .ok (mk a b)

/-- Decode the instruction at the head of a list of bytes, first byte at the lowest address (R50). -/
def decode (bytes : List Byte) : Except DecodeError Instr :=
  decodeFrom opcodeMap fun k => bytes[k]?

/-- The three bytes of a word numbered as spec/opcode_table.json numbers it: the opcode byte is bits 7 to 0, operand a
bits 15 to 8, operand b bits 23 to 16; every bit from `nbits` on is 0. -/
def tableBytes (nbits w : Nat) : List Byte :=
  let v := w % 2 ^ nbits
  [BitVec.ofNat 8 v, BitVec.ofNat 8 (v / 2 ^ 8), BitVec.ofNat 8 (v / 2 ^ 16)]

/-- The instruction the decoder reads from a word of the opcode table. -/
def decodeTableWord (nbits w : Nat) : Option Instr :=
  match decode (tableBytes nbits w) with
  | .ok i => some i
  | .error _ => none

/-- The bytes of an instruction in address order, written from the column `hex` of R56 and the formats of R50. -/
def encode : Instr → List Byte
  | .nop => [0x00]
  | .hlt => [0x01]
  | .ret => [0x11]
  | .iret => [0x13]
  | .push a => [0x45, a]
  | .pop a => [0x46, a]
  | .prn a => [0x47, a]
  | .pra a => [0x48, a]
  | .call a => [0x50, a]
  | .int a => [0x52, a]
  | .jmp a => [0x54, a]
  | .jeq a => [0x55, a]
  | .jne a => [0x56, a]
  | .jgt a => [0x57, a]
  | .jlt a => [0x58, a]
  | .jle a => [0x59, a]
  | .jge a => [0x5A, a]
  | .inc a => [0x65, a]
  | .dec a => [0x66, a]
  | .not a => [0x69, a]
  | .ldi a b => [0x82, a, b]
  | .ld a b => [0x83, a, b]
  | .st a b => [0x84, a, b]
  | .add a b => [0xA0, a, b]
  | .sub a b => [0xA1, a, b]
  | .mul a b => [0xA2, a, b]
  | .div a b => [0xA3, a, b]
  | .mod a b => [0xA4, a, b]
  | .cmp a b => [0xA7, a, b]
  | .and a b => [0xA8, a, b]
  | .or a b => [0xAA, a, b]
  | .xor a b => [0xAB, a, b]
  | .shl a b => [0xAC, a, b]
  | .shr a b => [0xAD, a, b]

/-- The dispatch category of an instruction, written from R57 (R56 has the same in its rows). -/
def Instr.category : Instr → Category
  | .add _ _ | .sub _ _ | .mul _ _ | .div _ _ | .mod _ _ | .and _ _ | .or _ _ | .xor _ _ => .alu
  | .shl _ _ | .shr _ _ | .inc _ | .dec _ | .not _ | .cmp _ _ => .alu
  | .ldi _ _ | .ld _ _ | .st _ _ | .push _ | .pop _ | .prn _ | .pra _ | .hlt | .nop => .dataOrStack
  | .jmp _ | .jeq _ | .jne _ | .jgt _ | .jge _ | .jlt _ | .jle _ | .call _ | .ret | .int _ | .iret => .controlFlow

/-- The operand count of an instruction, written from R53. -/
def Instr.operandCount : Instr → Nat
  | .add _ _ | .sub _ _ | .mul _ _ | .div _ _ | .mod _ _ | .and _ _ | .or _ _ | .xor _ _ => 2
  | .shl _ _ | .shr _ _ | .cmp _ _ | .ldi _ _ | .ld _ _ | .st _ _ => 2
  | .inc _ | .dec _ | .not _ | .push _ | .pop _ | .prn _ | .pra _ | .int _ | .call _ => 1
  | .jmp _ | .jeq _ | .jne _ | .jgt _ | .jge _ | .jlt _ | .jle _ => 1
  | .ret | .iret | .hlt | .nop => 0

end Sys2Proof
end

