-- ==== Sys2Proof/Config.lean ====
section
/-! DEFINITION. The parameters of R5, one constant each. The opcode map, the remaining row of R5, is
`Sys2Proof.opcodeMap` in Decode.lean (it is written with the constructors of Instr), and the decoder takes it as an
argument. `NREG`, `NLINES` and `XLEN` are the types `Reg`, `Line` and `Byte` of Word.lean. The model has no free
value: the spec leaves no result undefined (INVENTORY.md, What the manual leaves open). -/

namespace Sys2Proof.Config

/-- `MEMSIZE` (R5): memory cells, addresses 0 to 255. -/
@[simp] abbrev memSize : Nat := 256

/-- `SP_REG` (R5, R11): the register used as stack pointer. -/
@[simp] abbrev spReg : Reg := 7

/-- `IM_REG` (R5, R12): the register that is the interrupt enable mask. -/
@[simp] abbrev imReg : Reg := 5

/-- `IS_REG` (R5, R12): the register that is the interrupt pending mask. -/
@[simp] abbrev isReg : Reg := 6

/-- `SP_INIT` (R5): the reset value of R7 and the empty-stack mark tested by pops. -/
@[simp] abbrev spInit : Byte := 0xF4

/-- `VECTOR_BASE` (R5, R174): the address of the vector of line 0. -/
@[simp] abbrev vectorBase : Nat := 0xF8

/-- `KEY_ADDR` (R5, R36): the memory-mapped keyboard byte. -/
@[simp] abbrev keyAddr : Nat := 0xF4

/-- `TIMER_LINE` (R5, R170). -/
@[simp] abbrev timerLine : Line := 0

/-- `KEY_LINE` (R5, R170). -/
@[simp] abbrev keyLine : Line := 1

/-- `FL_E` (R5, R14). -/
@[simp] abbrev flEqual : Byte := 1

/-- `FL_G` (R5, R14). -/
@[simp] abbrev flGreater : Byte := 2

/-- `FL_L` (R5, R14). -/
@[simp] abbrev flLess : Byte := 4

/-- The load address of the program image (R5, R200). -/
@[simp] abbrev loadAddr : Nat := 0

/-- The reset value of `pc` (R5, R201). -/
@[simp] abbrev resetPc : Nat := 0

/-- The largest value `pc` can reach (R13, D7; log 4). -/
@[simp] abbrev pcMax : Nat := 258

/-- What memory holds where nothing was loaded or written (R20, R23): zero. -/
@[simp] abbrev memFill : Byte := 0

/-- `JNE_REQUIRES_RELATION` (R123, D9): false, so JNE is the complement of JEQ. UNVERIFIED, unsafe (log 6). -/
@[simp] abbrev jneRequiresRelation : Bool := false

/-- `TICK_DEFERRED` (R178, D13): false, so a tick that cannot raise line 0 is dropped. UNVERIFIED, unsafe (log 9). -/
@[simp] abbrev tickDeferred : Bool := false

end Sys2Proof.Config
end

