-- ==== Sys2Proof/Machine/State.lean ====
section
/-! DEFINITION. The state of the core (10_state.md), its two inputs held as plain data (R21), the fatal errors
(60_exceptions.md R161 to R168), the two reasons a step can stop, and the state after reset (R23). -/

namespace Sys2Proof.Machine

/-- The three situations of R168, the spec's own fault class (D5, D6, D8). -/
inductive UndefinedReason where
  /-- An operand byte used as a register index is 8 or more (R54). -/
  | registerIndex
  /-- INT finds a line number of 8 or more in its register (R141). -/
  | interruptLine
  /-- A `pc` of 256 or more would have to be pushed (R128, R175). -/
  | pcNotByte
  deriving DecidableEq, Repr

/-- The fatal errors: each ends the run, none enters a handler (R160, R167). `UnsupportedOperation` (R166) cannot
happen and is left out, as R166 allows (DEDUCED, safe, log 23). -/
inductive FatalError where
  /-- Raised by an opcode or operand fetch at an address of 256 or more, and by the loader for an image longer than
  256 bytes (R161). Safe: it is the spec's own error. -/
  | outOfBoundsAccess (addr : Nat)
  /-- Raised by a push with SP = 0: PUSH, CALL, interrupt delivery (R162). Safe: it is the spec's own error. -/
  | stackOverflow
  /-- Raised by a pop with SP at or above 0xF4: POP, RET, IRET (R163). Safe: it is the spec's own error. -/
  | stackUnderflow
  /-- Raised by DIV and MOD with a zero divisor (R164). Safe: it is the spec's own error. -/
  | divisionByZero
  /-- Raised by the decoder for an opcode byte with no row in the table; it carries the byte and `pc0` (R165).
  Safe for the opcode map the model takes (log 1). -/
  | unrecognizedOpcode (op : Byte) (pc0 : Nat)
  /-- Raised for the three situations of R168, with the offending value. Safe: the run stops where the spec's source
  gives no meaning (D5, D6, D8; log 2, 3, 5). -/
  | undefined (reason : UndefinedReason) (value : Nat)
  deriving DecidableEq, Repr

/-- An output event (R18): `Num(v)` from PRN, `Chr(v)` from PRA. -/
inductive OutputEvent where
  | num (v : Byte)
  | chr (v : Byte)
  deriving DecidableEq, Repr

/-- A step of the environment (R70): the only things the outside may do during a run (R203). -/
inductive EnvStep where
  /-- The tick counter grows by `k` (R178); `k = 0` is no event. -/
  | advanceTick (k : Nat)
  /-- A key-down event with its character code (R179). -/
  | keyEvent (code : Byte)
  /-- The external stop (R82). -/
  | stopRequest
  deriving DecidableEq, Repr

/-- Memory as (address, byte) pairs in the canonical form `Memory.wf` of Machine/Ops.lean; an unlisted address reads
as zero (R20). -/
abbrev Memory := List Host.Cell

/-- The whole state: R10 to R20, and the inputs of R21. -/
structure State where
  /-- `x[0]` to `x[7]` (R10); R5 is IM, R6 is IS, R7 is SP (R11, R12). -/
  regs : Vector Byte 8
  /-- The program counter, an unsigned integer that never wraps (R13, D7; log 4). -/
  pc : Nat
  /-- The flags byte (R14). -/
  fl : Byte
  /-- True inside an interrupt handler (R15). -/
  servicing : Bool
  /-- False after HLT or a stop request (R16). -/
  running : Bool
  /-- The tick value at the most recent observation (R17). -/
  lastTick : Nat
  /-- The output stream, oldest event first (R18). -/
  out : List OutputEvent
  /-- The fatal error that ended the run (R19). -/
  fault : Option FatalError
  /-- The 256 cells of memory (R20). -/
  mem : Memory
  /-- Input, not state of the core (R21): the current value of the tick counter. -/
  tick : Nat
  /-- Input, not state of the core (R21, R70): the environment steps to come, one list for each coming cycle boundary;
  after the last list nothing comes (DESIGN CHOICE, safe, log 11). -/
  schedule : List (List EnvStep)
  deriving DecidableEq, Repr

/-- Why the machine stops. -/
inductive Fault where
  /-- Raised by `raise` (R167), and by a step of a state whose run already ended with an error: the fatal error, and
  the state at that moment with `fault` set. Safe as to the stop; a claim should read only `fault` and `out` of the
  wreck (D20; log 17). -/
  | raised (error : FatalError) (wreck : State)
  deriving DecidableEq, Repr

/-- Why an instruction has no meaning. No step of the finished model answers it (R81). -/
inductive Refusal where
  /-- Answered by the arm of an instruction that has no meaning yet. Safe: nothing can be proved past it. -/
  | notModelled (mnemonic : String)
  deriving DecidableEq, Repr

/-- What a meaning answers. -/
abbrev Result := Host.Outcome State Fault Refusal

/-- The state right after reset with no program image loaded (R23, R200): the registers and the hidden state at the
values R23 gives (D12; log 8), memory zero. The inputs are `tick = 0` and no environment step to come
(DESIGN CHOICE, unsafe, log 12). -/
def State.reset : State where
  regs := #v[0, 0, 0, 0, 0, 0, 0, Config.spInit]
  pc := Config.resetPc
  fl := 0
  servicing := false
  running := true
  lastTick := 0
  out := []
  fault := none
  mem := []
  tick := 0
  schedule := []

end Sys2Proof.Machine
end

