-- ==== Sys2Proof/Machine/Flags.lean ====
section
/-! DEFINITION. The flags: what CMP computes (R104) and the tests of the conditional jumps, each a comparison of the
whole byte FL (R122 to R127, D10). -/

namespace Sys2Proof.Machine

/-- The flags byte CMP writes: exactly one of Equal, Greater, Less, by unsigned comparison (R104). -/
def compareFlags (p q : Byte) : Byte :=
  if p = q then Config.flEqual else if q < p then Config.flGreater else Config.flLess

/-- JEQ is taken (R122). -/
def takenEq (fl : Byte) : Bool := fl == Config.flEqual

/-- JNE is taken (R123): with `JNE_REQUIRES_RELATION` false the complement of JEQ, with it true only on Greater or Less
(D9; log 6). -/
def takenNe (requiresRelation : Bool) (fl : Byte) : Bool :=
  if requiresRelation then fl == Config.flGreater || fl == Config.flLess else fl != Config.flEqual

/-- JGT is taken (R124). -/
def takenGt (fl : Byte) : Bool := fl == Config.flGreater

/-- JGE is taken (R125). -/
def takenGe (fl : Byte) : Bool := fl == Config.flGreater || fl == Config.flEqual

/-- JLT is taken (R126). -/
def takenLt (fl : Byte) : Bool := fl == Config.flLess

/-- JLE is taken (R127). -/
def takenLe (fl : Byte) : Bool := fl == Config.flLess || fl == Config.flEqual

end Sys2Proof.Machine
end

