-- ==== Sys2Proof/Machine/Ops.lean ====
section
/-! DEFINITION. The operations every meaning is built from: memory in its canonical form, one accessor for each piece
of state, raising a fatal error, the stack primitives (R37, R38), the pending mask (R172), taking an interrupt (R175)
and returning from one (R142). -/

namespace Sys2Proof.Machine

/-! ### Memory -/

/-- What an unlisted address reads as: memory is zero-initialised (R20). -/
def Memory.unlisted : Byte := Config.memFill

/-- The byte at an address (R31, without the range check). -/
def Memory.read : Memory → Nat → Byte
  | [], _ => Memory.unlisted
  | (k, w) :: rest, addr => if k = addr then w else Memory.read rest addr

/-- A cell in front of a list, left out where it holds what an unlisted address reads as. -/
def Memory.cons (addr : Nat) (v : Byte) (rest : Memory) : Memory :=
  if v = Memory.unlisted then rest else (addr, v) :: rest

/-- Memory with one byte changed (R32, without the range check), in canonical form. -/
def Memory.write : Memory → Nat → Byte → Memory
  | [], addr, v => Memory.cons addr v []
  | (k, w) :: rest, addr, v =>
    if addr < k then Memory.cons addr v ((k, w) :: rest)
    else if addr = k then Memory.cons addr v rest
    else (k, w) :: Memory.write rest addr v

/-- The canonical form (log 26): addresses strictly rising and below 256, no entry equal to what an unlisted address
reads as. -/
def Memory.isCanonical (m : Memory) : Bool :=
  decide (m.Pairwise (fun c d => c.1 < d.1) ∧ ∀ c ∈ m, c.1 < Config.memSize ∧ c.2 ≠ Memory.unlisted)

/-- The memory is in canonical form. -/
abbrev Memory.wf (m : Memory) : Prop := m.isCanonical = true

/-- Memory with consecutive bytes written from an address upward. -/
def Memory.writeBytes : Memory → Nat → List Byte → Memory
  | m, _, [] => m
  | m, addr, v :: vs => Memory.writeBytes (m.write addr v) (addr + 1) vs

/-! ### Accessors: each piece of state is read and written through these -/

/-- `x[r]` (R10). -/
def State.reg (s : State) (r : Reg) : Byte := s.regs[r]

/-- `x[r] <- v` (R10). No register is hard-wired. -/
def State.setReg (s : State) (r : Reg) (v : Byte) : State := { s with regs := s.regs.set r v }

/-- `SP`, that is `x[7]` (R11). -/
def State.sp (s : State) : Byte := s.reg Config.spReg

/-- `IM`, that is `x[5]` (R12). -/
def State.im (s : State) : Byte := s.reg Config.imReg

/-- `IS`, that is `x[6]` (R12). -/
def State.is (s : State) : Byte := s.reg Config.isReg

/-- `pc <- t` (R13). -/
def State.setPc (s : State) (t : Nat) : State := { s with pc := t }

/-- The advance of the execution loop past an instruction of `n` bytes: a plain addition with no wrap (R77, D7). -/
def State.advance (s : State) (n : Nat) : State := s.setPc (s.pc + n)

/-- `FL <- v` (R14). -/
def State.setFl (s : State) (v : Byte) : State := { s with fl := v }

/-- `servicing <- b` (R15). -/
def State.setServicing (s : State) (b : Bool) : State := { s with servicing := b }

/-- `running <- false` (R16). -/
def State.stop (s : State) : State := { s with running := false }

/-- `last_tick <- tick` (R17). -/
def State.observeTick (s : State) : State := { s with lastTick := s.tick }

/-- `Emit(e)` (R18). -/
def State.emit (s : State) (e : OutputEvent) : State := { s with out := s.out ++ [e] }

/-- `fault <- e` (R19). -/
def State.setFault (s : State) (e : FatalError) : State := { s with fault := some e }

/-- `mem[addr] <- v`. -/
def State.setMem (s : State) (addr : Nat) (v : Byte) : State := { s with mem := s.mem.write addr v }

/-- The input `tick` grows by `k` (R70, R178). -/
def State.advanceTick (s : State) (k : Nat) : State := { s with tick := s.tick + k }

/-- The environment steps still to come. -/
def State.setSchedule (s : State) (es : List (List EnvStep)) : State := { s with schedule := es }

/-! ### Sequencing -/

/-- `raise E` (R167): the run ends; the writes made before stay, and `fault` is set. -/
def raise (e : FatalError) (s : State) : Result := .fault (.raised e (s.setFault e))

/-- Do the rest only where the first part completed (R7: a `raise` ends the block). -/
def andThen (r : Result) (k : State → Result) : Result :=
  match r with
  | .next s => k s
  | .fault f => .fault f
  | .refused f => .refused f

/-- `MemRead(addr, 1)` (R31), its value handed on. -/
def memRead (addr : Nat) (s : State) (k : Byte → Result) : Result :=
  if addr < Config.memSize then k (s.mem.read addr) else raise (.outOfBoundsAccess addr) s

/-- `MemWrite(addr, 1, v)` (R32). -/
def memWrite (addr : Nat) (v : Byte) (s : State) : Result :=
  if addr < Config.memSize then .next (s.setMem addr v) else raise (.outOfBoundsAccess addr) s

/-- The byte at an address, where there is one to fetch (R73, R75). -/
def State.byteAt? (s : State) (addr : Nat) : Option Byte :=
  if addr < Config.memSize then some (s.mem.read addr) else none

/-! ### Stack primitives -/

/-- `Push(v)` (R37). -/
def push (v : Byte) (s : State) : Result :=
  if s.sp = 0 then raise .stackOverflow s
  else memWrite (s.sp - 1).toNat v (s.setReg Config.spReg (s.sp - 1))

/-- `Pop()` (R38), its value handed on. The test is unsigned (R6). -/
def pop (s : State) (k : Byte → State → Result) : Result :=
  if Config.spInit ≤ s.sp then raise .stackUnderflow s
  else memRead s.sp.toNat s fun v => k v (s.setReg Config.spReg (s.sp + 1))

/-- Push several bytes, the first one first; the pushes before one that fails stay (R167). -/
def pushAll : List Byte → State → Result
  | [], s => .next s
  | v :: vs, s => andThen (push v s) (pushAll vs)

/-- Pop a byte into each register in turn; the pops before one that fails stay (R142, R167). -/
def popRegs : List Reg → State → Result
  | [], s => .next s
  | r :: rs, s => pop s fun v t => popRegs rs (t.setReg r v)

/-! ### Interrupt lines -/

/-- The bit of line `i` in IM and IS: bit i, value `2^i` (R5, R12, D11; UNVERIFIED, unsafe, log 7). -/
def lineBit (i : Line) : Byte := BitVec.ofNat 8 (2 ^ i.val)

/-- `SetPending(i)` (R172). -/
def setPending (i : Line) (s : State) : State := s.setReg Config.isReg (s.is ||| lineBit i)

/-- `ClearPending(i)` (R172). -/
def clearPending (i : Line) (s : State) : State := s.setReg Config.isReg (s.is &&& (255 - lineBit i))

/-- Whether line `i` is enabled (R171). -/
def State.enabled (s : State) (i : Line) : Bool := s.im &&& lineBit i != 0

/-- Whether line `i` is pending (R172). -/
def State.pending (s : State) (i : Line) : Bool := s.is &&& lineBit i != 0

/-- The eight lines in the order of their priority, line 0 first (R173). -/
def allLines : List Line := [0, 1, 2, 3, 4, 5, 6, 7]

/-- The line chosen at step 2 of a cycle: the least one enabled and pending, none while Servicing (R72, R173). -/
def chosenLine (s : State) : Option Line :=
  if s.servicing then none else allLines.find? fun i => s.enabled i && s.pending i

/-! ### Taking an interrupt and returning from one -/

/-- The nine bytes an interrupt delivery pushes, in order: `pc`, FL, R0 to R6 (R175). -/
def interruptFrame (s : State) : List Byte :=
  [BitVec.ofNat 8 s.pc, s.fl, s.reg 0, s.reg 1, s.reg 2, s.reg 3, s.reg 4, s.reg 5, s.reg 6]

/-- `Deliver(i)` (R175): the machine's one exception entry. A `pc` that is no byte is not pushed (D8; log 5). -/
def deliver (i : Line) (s : State) : Result :=
  if 256 ≤ s.pc then raise (.undefined .pcNotByte s.pc) s
  else
    let c := clearPending i s
    andThen (pushAll (interruptFrame c) c) fun t =>
      memRead (Config.vectorBase + i.val) t fun v => .next ((t.setPc v.toNat).setServicing true)

/-- The registers IRET pops, in order (R142). -/
def returnRegs : List Reg := [6, 5, 4, 3, 2, 1, 0]

/-- The return from an interrupt handler (R142): the nine pops, then `servicing <- false`. It does not check that the
core is in Servicing (D24; log 21). -/
def returnFromInterrupt (s : State) : Result :=
  andThen (popRegs returnRegs s) fun t =>
    pop t fun f u => pop (u.setFl f) fun p v => .next ((v.setPc p.toNat).setServicing false)

end Sys2Proof.Machine
end

