-- ==== Sys2Proof/Machine/Operands.lean ====
section
/-! DEFINITION. The operand forms (R52 to R55). An immediate is its operand byte; a register operand goes through
`RegIdx` (R54). -/

namespace Sys2Proof.Machine

/-- `RegIdx(v)` (R54), the register handed on: a byte of 8 or more raises `Undefined(RegisterIndex, v)` and is never
masked (D5; UNVERIFIED, safe, log 2). -/
def withReg (v : Byte) (s : State) (k : Reg → Result) : Result :=
  if h : NamesReg v then k ⟨v.toNat, h⟩ else raise (.undefined .registerIndex v.toNat) s

/-- `ra <- RegIdx(a); rb <- RegIdx(b)`: both checked, a first, before any state is read or written (R54, R78). -/
def withRegs (a b : Byte) (s : State) (k : Reg → Reg → Result) : Result :=
  withReg a s fun ra => withReg b s fun rb => k ra rb

end Sys2Proof.Machine
end

