-- ==== Sys2Proof/Machine/Alu.lean ====
section
/-! DEFINITION. The ALU instructions (41_alu.md). Results are bytes; sums, differences, products and left shifts
wrap modulo 256 with no carry recorded (R90, R105). -/

namespace Sys2Proof.Machine

/-- A two-register ALU instruction (R90): both registers read, then the first written, then `pc <- pc0 + 3`. -/
def binaryAlu (f : Byte → Byte → Byte) (a b : Byte) (s : State) : Result :=
  withRegs a b s fun ra rb => .next ((s.setReg ra (f (s.reg ra) (s.reg rb))).advance 3)

/-- A two-register ALU instruction with a divisor: a zero divisor raises `DivisionByZero` (R94, R95, R164). -/
def dividingAlu (f : Byte → Byte → Byte) (a b : Byte) (s : State) : Result :=
  withRegs a b s fun ra rb =>
    if s.reg rb = 0 then raise .divisionByZero s
    else .next ((s.setReg ra (f (s.reg ra) (s.reg rb))).advance 3)

/-- A one-register ALU instruction (R101 to R103), then `pc <- pc0 + 2`. -/
def unaryAlu (f : Byte → Byte) (a : Byte) (s : State) : Result :=
  withReg a s fun ra => .next ((s.setReg ra (f (s.reg ra))).advance 2)

/-- `(p + q) mod 256` (R91). -/
def aluAdd (p q : Byte) : Byte := p + q

/-- `(p - q) mod 256` (R92). -/
def aluSub (p q : Byte) : Byte := p - q

/-- `(p * q) mod 256` (R93). -/
def aluMul (p q : Byte) : Byte := p * q

/-- `floor(p / q)`, unsigned (R94, U1). -/
def aluDiv (p q : Byte) : Byte := p / q

/-- `p - q * floor(p / q)`, unsigned (R95, U1). -/
def aluMod (p q : Byte) : Byte := p % q

/-- Bitwise and (R96). -/
def aluAnd (p q : Byte) : Byte := p &&& q

/-- Bitwise or (R97). -/
def aluOr (p q : Byte) : Byte := p ||| q

/-- Bitwise exclusive or (R98). -/
def aluXor (p q : Byte) : Byte := p ^^^ q

/-- `(p * 2^q) mod 256`, the whole byte q the count (R99, D22; log 19). -/
def aluShl (p q : Byte) : Byte := p <<< q.toNat

/-- `floor(p / 2^q)`, the whole byte q the count (R100, D22; log 19). -/
def aluShr (p q : Byte) : Byte := p >>> q.toNat

/-- `(p + 1) mod 256` (R101). -/
def aluInc (p : Byte) : Byte := p + 1

/-- `(p - 1) mod 256` (R102). -/
def aluDec (p : Byte) : Byte := p - 1

/-- `255 - p` (R103). -/
def aluNot (p : Byte) : Byte := 255 - p

/-- ADD (R91). -/
def execAdd (a b : Byte) (s : State) : Result := binaryAlu aluAdd a b s

/-- SUB (R92). -/
def execSub (a b : Byte) (s : State) : Result := binaryAlu aluSub a b s

/-- MUL (R93). -/
def execMul (a b : Byte) (s : State) : Result := binaryAlu aluMul a b s

/-- DIV (R94). -/
def execDiv (a b : Byte) (s : State) : Result := dividingAlu aluDiv a b s

/-- MOD (R95). -/
def execMod (a b : Byte) (s : State) : Result := dividingAlu aluMod a b s

/-- AND (R96). -/
def execAnd (a b : Byte) (s : State) : Result := binaryAlu aluAnd a b s

/-- OR (R97). -/
def execOr (a b : Byte) (s : State) : Result := binaryAlu aluOr a b s

/-- XOR (R98). -/
def execXor (a b : Byte) (s : State) : Result := binaryAlu aluXor a b s

/-- SHL (R99). -/
def execShl (a b : Byte) (s : State) : Result := binaryAlu aluShl a b s

/-- SHR (R100). -/
def execShr (a b : Byte) (s : State) : Result := binaryAlu aluShr a b s

/-- INC (R101). -/
def execInc (a : Byte) (s : State) : Result := unaryAlu aluInc a s

/-- DEC (R102). -/
def execDec (a : Byte) (s : State) : Result := unaryAlu aluDec a s

/-- NOT (R103). -/
def execNot (a : Byte) (s : State) : Result := unaryAlu aluNot a s

/-- CMP (R104): no register is written, the whole byte FL is. -/
def execCmp (a b : Byte) (s : State) : Result :=
  withRegs a b s fun ra rb => .next ((s.setFl (compareFlags (s.reg ra) (s.reg rb))).advance 3)

end Sys2Proof.Machine
end

