-- ==== Sys2Proof/Machine/Control.lean ====
section
/-! DEFINITION. Control transfer (43_control_flow.md): each instruction places `pc` itself (R120). -/

namespace Sys2Proof.Machine

/-- A jump to the byte in a register where `taken`, else past the instruction (R120): the register operand is checked
also where the jump is not taken (D19; log 16). -/
def jumpIf (taken : Bool) (a : Byte) (s : State) : Result :=
  withReg a s fun ra => .next (if taken then s.setPc (s.reg ra).toNat else s.advance 2)

/-- JMP (R121). -/
def execJmp (a : Byte) (s : State) : Result := jumpIf true a s

/-- JEQ (R122). -/
def execJeq (a : Byte) (s : State) : Result := jumpIf (takenEq s.fl) a s

/-- JNE (R123, D9; log 6). -/
def execJne (a : Byte) (s : State) : Result := jumpIf (takenNe Config.jneRequiresRelation s.fl) a s

/-- JGT (R124). -/
def execJgt (a : Byte) (s : State) : Result := jumpIf (takenGt s.fl) a s

/-- JGE (R125). -/
def execJge (a : Byte) (s : State) : Result := jumpIf (takenGe s.fl) a s

/-- JLT (R126). -/
def execJlt (a : Byte) (s : State) : Result := jumpIf (takenLt s.fl) a s

/-- JLE (R127). -/
def execJle (a : Byte) (s : State) : Result := jumpIf (takenLe s.fl) a s

/-- CALL (R128): a return address of 256 is not pushed (D8; log 5), and the target is read after the push (D25;
log 13). -/
def execCall (a : Byte) (s : State) : Result :=
  withReg a s fun ra =>
    if 256 ≤ s.pc + 2 then raise (.undefined .pcNotByte (s.pc + 2)) s
    else andThen (push (BitVec.ofNat 8 (s.pc + 2)) s) fun t => .next (t.setPc (t.reg ra).toNat)

/-- RET (R129): it does not touch `servicing` (D24; log 21). -/
def execRet (s : State) : Result := pop s fun v t => .next (t.setPc v.toNat)

end Sys2Proof.Machine
end

