-- ==== Sys2Proof/Machine/DataStack.lean ====
section
/-! DEFINITION. Data movement and stack instructions (42_data_stack.md). -/

namespace Sys2Proof.Machine

/-- LDI (R111): the immediate is stored as it stands (R55). -/
def execLdi (a b : Byte) (s : State) : Result :=
  withReg a s fun ra => .next ((s.setReg ra b).advance 3)

/-- LD (R112, D4; UNVERIFIED, unsafe, log 20): the address is `x[rb]`, the destination `ra`. -/
def execLd (a b : Byte) (s : State) : Result :=
  withRegs a b s fun ra rb => memRead (s.reg rb).toNat s fun v => .next ((s.setReg ra v).advance 3)

/-- ST (R113, D4; UNVERIFIED, unsafe, log 20): the address is `x[ra]`, the value `x[rb]`. -/
def execSt (a b : Byte) (s : State) : Result :=
  withRegs a b s fun ra rb =>
    andThen (memWrite (s.reg ra).toNat (s.reg rb) s) fun t => .next (t.advance 3)

/-- PUSH (R114): the register is read before SP is decremented (D16; log 13). -/
def execPush (a : Byte) (s : State) : Result :=
  withReg a s fun ra => andThen (push (s.reg ra) s) fun t => .next (t.advance 2)

/-- POP (R115): the register is written after SP is incremented (D16; log 13). -/
def execPop (a : Byte) (s : State) : Result :=
  withReg a s fun ra => pop s fun v t => .next ((t.setReg ra v).advance 2)

end Sys2Proof.Machine
end

