-- ==== Sys2Proof/Machine/System.lean ====
section
/-! DEFINITION. System and output instructions (44_system_io.md). None is privileged (R140, R183). -/

namespace Sys2Proof.Machine

/-- INT (R141): a line number of 8 or more raises `Undefined(InterruptLine, n)` (D6; UNVERIFIED, safe, log 3). -/
def execInt (a : Byte) (s : State) : Result :=
  withReg a s fun ra =>
    let n := s.reg ra
    if h : n.toNat < 8 then .next ((setPending ⟨n.toNat, h⟩ s).advance 2)
    else raise (.undefined .interruptLine n.toNat) s

/-- IRET (R142). -/
def execIret (s : State) : Result := returnFromInterrupt s

/-- HLT (R143): the cycle completes, so `pc` ends one past it (D3; log 1). -/
def execHlt (s : State) : Result := .next (s.stop.advance 1)

/-- NOP (R144). -/
def execNop (s : State) : Result := .next (s.advance 1)

/-- PRN (R145, D17; log 14). -/
def execPrn (a : Byte) (s : State) : Result :=
  withReg a s fun ra => .next ((s.emit (.num (s.reg ra))).advance 2)

/-- PRA (R146, D17; log 14). -/
def execPra (a : Byte) (s : State) : Result :=
  withReg a s fun ra => .next ((s.emit (.chr (s.reg ra))).advance 2)

end Sys2Proof.Machine
end

