-- ==== Sys2Proof/Machine/Events.lean ====
section
/-! DEFINITION. The event sources: the timer check of a cycle (R178) and the steps of the environment between two
cycles (R70, R82, R179). -/

namespace Sys2Proof.Machine

/-- `TimerCheck()` (R178). With `TICK_DEFERRED` false an observed advance that cannot raise line 0 is dropped; with it
true the observation waits until the bit can be set (D13; log 9). -/
def timerCheck (deferred : Bool) (s : State) : State :=
  if s.tick = s.lastTick then s
  else if s.enabled Config.timerLine && !s.servicing then setPending Config.timerLine s.observeTick
  else if deferred then s
  else s.observeTick

/-- `KeyEvent(code)` (R179): dropped whole where line 1 is disabled or still pending. `MemWrite` cannot fail at 0xF4. -/
def keyEvent (code : Byte) (s : State) : State :=
  if s.enabled Config.keyLine && !s.pending Config.keyLine
  then (setPending Config.keyLine s).setMem Config.keyAddr code
  else s

/-- `StopRequest` (R82): it changes nothing but `running`. -/
def stopRequest (s : State) : State := s.stop

/-- One step of the environment (R70). -/
def envStep (e : EnvStep) (s : State) : State :=
  match e with
  | .advanceTick k => s.advanceTick k
  | .keyEvent code => keyEvent code s
  | .stopRequest => stopRequest s

/-- The steps of the environment at one cycle boundary, in order (R70). A `StopRequest` among them does not cut the list
short: the steps after it belong to the same boundary and still act, with `running` already false
(DESIGN CHOICE, unsafe, log 29: R71, R82 and R203 do not say). -/
def envSteps : List EnvStep → State → State
  | [], s => s
  | e :: es, s => envSteps es (envStep e s)

/-- A cycle boundary: the environment steps that fall between this cycle and the next (R70, R42). Where the cycle itself
ended the run there is no next cycle and none is applied (DESIGN CHOICE, safe, log 11). -/
def boundary (s : State) : State :=
  if s.running then
    match s.schedule with
    | [] => s
    | es :: rest => envSteps es (s.setSchedule rest)
  else s

end Sys2Proof.Machine
end

