-- ==== Sys2Proof/Machine/Cycle.lean ====
section
/-! DEFINITION. The execution cycle (40_execution_cycle.md R71 to R78). -/

namespace Sys2Proof.Machine

/-- The instruction at `pc`: the opcode fetched at `pc`, then the operand bytes its row asks for (R73 to R75). -/
def fetchDecode (s : State) : Except DecodeError Instr :=
  decodeFrom opcodeMap fun k => s.byteAt? (s.pc + k)

/-- The fatal error of a decoding that fails at `pc` (R73, R74, R75). -/
def decodeFault (e : DecodeError) (s : State) : FatalError :=
  match e with
  | .missingByte k => .outOfBoundsAccess (s.pc + k)
  | .unrecognizedOpcode op => .unrecognizedOpcode op s.pc

/-- Step 5 of a cycle (R72): fetch, decode, fetch the operands, execute. -/
def fetchExecute (s : State) : Result :=
  match fetchDecode s with
  | .ok i => exec i s
  | .error e => raise (decodeFault e s) s

/-- `Cycle()` (R72): the line is chosen before the timer check (D14, C2; log 10), then the interrupt is delivered or
one instruction is executed. -/
def cycle (s : State) : Result :=
  let line := chosenLine s
  let t := timerCheck Config.tickDeferred s
  match line with
  | some i => deliver i t
  | none => fetchExecute t

/-- One turn of the run loop (R71): a cycle, then what the environment does before the next. A run that is over makes
no further cycle: a halted state stays as it is, a faulted one keeps answering its error (DESIGN CHOICE, safe,
log 18). -/
def runLoopTurn (s : State) : Result :=
  match s.fault with
  | some e => .fault (.raised e s)
  | none => if s.running then andThen (cycle s) fun t => .next (boundary t) else .next s

/-- A state whose very next cycle fetches `bytes`: they are stored at `pc` (at address 0 where they do not fit there),
the run is not over, and no interrupt is delivered instead (log 24). After reset only memory changes. -/
def withProgramBytes (bytes : List Byte) (s : State) : State :=
  let at0 := if s.pc + bytes.length ≤ Config.memSize then s.pc else 0
  { s with
    mem := s.mem.writeBytes at0 bytes
    pc := at0
    running := true
    fault := none
    servicing := s.servicing || (chosenLine s).isSome }

end Sys2Proof.Machine
end

