-- ==== Sys2Proof/Machine/Step.lean ====
section
/-! DEFINITION. The step of the machine: one turn of the run loop (R71, R72). -/

namespace Sys2Proof.Machine

/-- One step (R71): one cycle and the environment steps up to the next. -/
def step (s : State) : Host.Outcome State Fault Refusal := runLoopTurn s

/-- `s` with the instruction of an opcode-table word stored where `step` fetches its next instruction (log 24). -/
def State.withFetchWord (s : State) (nbits w : Nat) : State := withProgramBytes (tableBytes nbits w) s

end Sys2Proof.Machine
end

