-- ==== Sys2Proof/Machine/Loader.lean ====
section
/-! DEFINITION. Before the run: the program image as reset input (R200) and the text format of the program file
(R63). The loader program itself is out of scope (R4); these are its interface. -/

namespace Sys2Proof.Machine

/-- Copy bytes to memory from an address upward; an address of 256 raises `OutOfBoundsAccess` (R63, R161). -/
def loadFrom : Nat → List Byte → State → Result
  | _, [], s => .next s
  | addr, v :: vs, s => andThen (memWrite addr v s) (loadFrom (addr + 1) vs)

/-- Step 3 of the reset sequence (R200): the image copied verbatim to address 0. -/
def loadImage (image : List Byte) (s : State) : Result := loadFrom Config.loadAddr image s

/-- The whole reset sequence with the tick input at `tick` and the environment steps that will come (R200, R23). -/
def powerOn (tick : Nat) (schedule : List (List EnvStep)) (image : List Byte) : Result :=
  loadImage image { State.reset with lastTick := tick, tick := tick, schedule := schedule }

/-- What stands on a line before its comment (R63). -/
def stripComment (line : List Char) : List Char := line.takeWhile (· != '#')

/-- Space, tab and carriage return. -/
def isBlank (c : Char) : Bool := c == ' ' || c == '\t' || c == '\r'

/-- A line without the blanks before and after its text (DEDUCED from the example of R63, unsafe, log 25). -/
def trimBlanks (line : List Char) : List Char := ((line.dropWhile isBlank).reverse.dropWhile isBlank).reverse

/-- A binary literal, most significant bit first, as a number; none where a character is no binary digit (R63). -/
def binaryValue : List Char → Option Nat
  | [] => some 0
  | c :: cs =>
    match binaryValue cs with
    | none => none
    | some v =>
      if c = '0' then some v
      else if c = '1' then some (v + 2 ^ cs.length)
      else none

/-- The bytes of the lines of a program file (R63): a blank or comment-only line is skipped, an 8-character binary
literal is one byte, and a file with any other line is not accepted (log 25). -/
def parseImage : List (List Char) → Option (List Byte)
  | [] => some []
  | line :: lines =>
    match trimBlanks (stripComment line), parseImage lines with
    | _, none => none
    | [], some image => some image
    | literal, some image =>
      if literal.length = 8 then (binaryValue literal).map fun v => BitVec.ofNat 8 v :: image else none

end Sys2Proof.Machine
end

