-- ==== Sys2Proof/Safety.lean ====
section
/-! DEFINITION. The terms the statements use: the state of a run (R80), the invariant of the machine, and what an
instruction leaves unchanged. -/

namespace Sys2Proof.Machine

/-- The operand byte that names a register (R53, R54). -/
def regByte (r : Reg) : Byte := BitVec.ofNat 8 r.val

/-- The run loop performs a cycle (R71). -/
abbrev State.Active (s : State) : Prop := s.fault = none ∧ s.running = true

/-- The only final state (R80 (a)). -/
abbrev State.Halted (s : State) : Prop := s.fault = none ∧ s.running = false

/-- The invariant of a run that has not faulted: memory in canonical form, `pc` in its range (R13), the last tick
observed not ahead of the tick input (R178), and no fatal error (R19). -/
abbrev State.Inv (s : State) : Prop :=
  s.mem.wf ∧ s.pc ≤ Config.pcMax ∧ s.lastTick ≤ s.tick ∧ s.fault = none

/-- Every byte of memory reads as before. -/
def SameMemory (s t : State) : Prop := ∀ addr, t.mem.read addr = s.mem.read addr

/-- Every byte of memory outside one address reads as before. -/
def SameMemoryExcept (at_ : Nat) (s t : State) : Prop := ∀ addr, addr ≠ at_ → t.mem.read addr = s.mem.read addr

/-- Every general register outside a list is unchanged. -/
def SameRegsExcept (rs : List Reg) (s t : State) : Prop := ∀ r, r ∉ rs → t.reg r = s.reg r

/-- The control state other than `servicing`, `running` and `out`, and the two inputs, are unchanged. -/
def SameHidden (s t : State) : Prop :=
  t.lastTick = s.lastTick ∧ t.fault = s.fault ∧ t.tick = s.tick ∧ t.schedule = s.schedule

/-- `servicing`, `running`, `out` and the rest of the control state are unchanged. -/
def SameControl (s t : State) : Prop :=
  t.servicing = s.servicing ∧ t.running = s.running ∧ t.out = s.out ∧ SameHidden s t

/-- The instruction completes: the next state differs only in one register, which holds `v`, and in `pc`. -/
def WritesRegister (i : Instr) (s : State) (r : Reg) (v : Byte) : Prop :=
  ∃ p, exec i s = .next { s with regs := s.regs.set r v, pc := p }

/-- The instruction completes: the next state differs only in FL, which holds `v`, and in `pc`. -/
def WritesFlags (i : Instr) (s : State) (v : Byte) : Prop :=
  ∃ p, exec i s = .next { s with fl := v, pc := p }

/-- The run ends with a fatal error and nothing else changes (R167). -/
def RaisesOnly (r : Result) (e : FatalError) (s : State) : Prop :=
  r = .fault (.raised e { s with fault := some e })

/-- The run ends with a fatal error, whatever was done before the raise. -/
def Raises (r : Result) (e : FatalError) : Prop := ∃ w, r = .fault (.raised e w)

/-- Successive pops from `s` return the bytes in order and lead to `t` (R38, R39). -/
def PopsReturn : List Byte → State → State → Prop
  | [], s, t => s = t
  | v :: vs, s, t => ∃ u, (∀ k, pop s k = k v u) ∧ PopsReturn vs u t

end Sys2Proof.Machine
end

