-- ==== Sys2Proof/Certificates/Slice0/Obligations.lean ====
section
/-! DEFINITION. The statements about the machine. The docstring of each names the rule of spec/ it formalises, and the
decision D<n> of the spec or the log entry of the model where it rests on one. -/

open Sys2Proof Sys2Proof.Machine

/-! ### Encoding -/

/-- Decode and encode agree: decoding the encoding of any instruction, with every operand byte, gives that instruction
back, whatever bytes follow; and the bytes that decode to an instruction begin with its encoding, so no word has two
meanings and no byte of an instruction is ignored (R50, R52, R56, R58, R60; the opcode bytes, counts and categories are
the spec's own D1, D2, D3, log 1). -/
def Obligations.DecodeAgreesWithEncode : Prop :=
  (∀ (i : Instr) (rest : List Byte), decode (encode i ++ rest) = .ok i) ∧
  (∀ (bytes : List Byte) (i : Instr), decode bytes = .ok i → ∃ rest, bytes = encode i ++ rest)

/-- A few words written out from R56 and R50 decode to the instruction they stand for (D1, log 1). -/
def Obligations.WrittenOutWordsDecode : Prop :=
  decode [0x00] = .ok .nop ∧ decode [0x13] = .ok .iret ∧ decode [0x45, 0x01] = .ok (.push 1) ∧
  decode [0x5A, 0x03] = .ok (.jge 3) ∧ decode [0x65, 0x00] = .ok (.inc 0) ∧
  decode [0x82, 0x00, 0x08] = .ok (.ldi 0 8) ∧ decode [0xA7, 0x01, 0x02] = .ok (.cmp 1 2) ∧
  decode [0x84, 0x02, 0x00] = .ok (.st 2 0) ∧ decode [0xAD, 0x00, 0x01] = .ok (.shr 0 1)

/-- An opcode byte outside the 34 values of R56 has no row, and step 5 of the cycle that fetches it raises
`UnrecognizedOpcode` with the byte and `pc` and does nothing else; one of the 34 has a row (R59, R74, R165; D1, log 1).
`StepRaisesWhereDecodingFails` says it of the step. -/
def Obligations.OpcodesOutsideTheTableRaise : Prop :=
  ∀ (s : State) (op : Byte), s.pc < 256 → s.mem.read s.pc = op →
    (op ∉ ([0x00, 0x01, 0x11, 0x13, 0x45, 0x46, 0x47, 0x48, 0x50, 0x52, 0x54, 0x55, 0x56, 0x57, 0x58, 0x59, 0x5A,
        0x65, 0x66, 0x69, 0x82, 0x83, 0x84, 0xA0, 0xA1, 0xA2, 0xA3, 0xA4, 0xA7, 0xA8, 0xAA, 0xAB, 0xAC, 0xAD] :
        List Byte) ↔ lookupOpcode opcodeMap op = none) ∧
    (lookupOpcode opcodeMap op = none → RaisesOnly (fetchExecute s) (.unrecognizedOpcode op s.pc) s)

/-- The opcode fetch and the operand fetches (R73, R75): a fetch at 256 or above raises `OutOfBoundsAccess` on the first
such address before the instruction has any effect (step 5 of the cycle; `StepRaisesWhereDecodingFails` says it of the
step); where the opcode and as many operand bytes as its count lie at 255
or below, the instruction is fetched and executed. That `pc` does not wrap is also the spec's D7 (log 4). -/
def Obligations.FetchRaisesOutOfBoundsOnlyPastMemory : Prop :=
  ∀ s : State,
    (256 ≤ s.pc → RaisesOnly (fetchExecute s) (.outOfBoundsAccess s.pc) s) ∧
    (∀ row, s.pc < 256 → lookupOpcode opcodeMap (s.mem.read s.pc) = some row →
      (256 ≤ s.pc + row.format.count → RaisesOnly (fetchExecute s) (.outOfBoundsAccess 256) s) ∧
      (s.pc + row.format.count < 256 → ∃ i, i.operandCount = row.format.count ∧
        (∀ k, (encode i)[k]? = if k ≤ row.format.count then some (s.mem.read (s.pc + k)) else none) ∧
        fetchExecute s = exec i s))

/-! ### The step -/

/-- A step runs the decoded instruction: where the run goes on and no line is chosen, the step is the meaning of the
instruction the bytes at `pc` decode to, after the timer check (which changes neither `pc` nor memory) and followed by
the environment steps of the cycle boundary, of which there are none where the schedule is empty (R71, R72; D14, D15,
log 10, log 11). -/
def Obligations.StepRunsTheDecodedInstruction : Prop :=
  ∀ (s : State) (i : Instr), s.Active → chosenLine s = none → fetchDecode s = .ok i →
    step s = andThen (exec i (timerCheck false s)) (fun t => .next (boundary t)) ∧
    (timerCheck false s).pc = s.pc ∧ (timerCheck false s).mem = s.mem ∧
    (s.tick = s.lastTick → timerCheck false s = s) ∧
    (∀ t : State, t.schedule = [] → boundary t = t)

/-- Where the bytes at `pc` are the encoding of an instruction, with no tick and no environment step to come, the step
is exactly the meaning of that instruction (R50, R72, R75; D1, log 1; environment steps as the field `schedule` are the
model's choice, log 11). -/
def Obligations.StepRunsTheEncodedInstruction : Prop :=
  ∀ (s : State) (i : Instr), s.Active → chosenLine s = none → s.tick = s.lastTick → s.schedule = [] →
    (∀ (k : Nat) (h : k < (encode i).length), s.byteAt? (s.pc + k) = some (encode i)[k]) →
    step s = exec i s

/-- Where a line is chosen, the cycle is the delivery and no instruction is fetched, whatever bytes are at `pc`: the
line is that of the masks before the timer check, the delivery happens after it (R72; D14, log 10). That the step then
ends with the environment steps of the cycle boundary is the model's choice (log 11). -/
def Obligations.StepDeliversTheChosenLine : Prop :=
  ∀ (s : State) (i : Line), s.Active → chosenLine s = some i →
    step s = andThen (deliver i (timerCheck false s)) (fun t => .next (boundary t))

/-- A run that is over makes no further cycle (R71, R80); that a halted state answers itself and a faulted one its
error is the model's choice (log 18). -/
def Obligations.EndedRunsMakeNoFurtherCycle : Prop :=
  ∀ s : State, (s.Halted → step s = .next s) ∧ (∀ e, s.fault = some e → step s = .fault (.raised e s))

/-- No step and no instruction is ever refused: each answers a next state or a fatal error (R76, R81). -/
def Obligations.NothingIsRefused : Prop :=
  (∀ s : State, (∃ t, step s = .next t) ∨ (∃ e, Raises (step s) e)) ∧
  (∀ (i : Instr) (s : State), (∃ t, exec i s = .next t) ∨ (∃ e, Raises (exec i s) e))

/-! ### Reset -/

/-- The state after reset with no image (R23, R200; R0 to R6 and the hidden state are the spec's D12, log 8, the inputs
`tick` and `schedule` the model's log 12). -/
def Obligations.ResetState : Prop :=
  (∀ r : Reg, State.reset.reg r = if r = 7 then 0xF4 else 0) ∧ State.reset.pc = 0 ∧ State.reset.fl = 0 ∧
  (∀ addr, State.reset.mem.read addr = 0) ∧ State.reset.servicing = false ∧ State.reset.running = true ∧
  State.reset.lastTick = State.reset.tick ∧ State.reset.out = [] ∧ State.reset.fault = none ∧
  State.reset.tick = 0 ∧ State.reset.schedule = []

/-- The reset sequence with an image of at most 256 bytes: the image is copied verbatim to address 0, every other cell is
0, registers and hidden state are as R23 says, `last_tick` is the tick input; a longer image raises
`OutOfBoundsAccess` and the core never runs (R23, R63, R200; D12, log 8). -/
def Obligations.PowerOnLoadsTheImage : Prop :=
  ∀ (tick : Nat) (schedule : List (List EnvStep)) (image : List Byte),
    (image.length ≤ 256 → ∃ m : Memory,
      powerOn tick schedule image =
        .next { State.reset with mem := m, lastTick := tick, tick := tick, schedule := schedule } ∧
      m.wf ∧ (∀ (k : Nat) (h : k < image.length), m.read k = image[k]) ∧
      (∀ k, image.length ≤ k → m.read k = 0)) ∧
    (256 < image.length → Raises (powerOn tick schedule image) (.outOfBoundsAccess 256))

/-! ### Invariants and rules of the whole machine -/

/-- The invariant holds after reset (R13, R19, R20; D12, log 8). -/
def Obligations.InvariantHoldsAtReset : Prop := State.reset.Inv

/-- Every step keeps the invariant: memory stays in canonical form (the form is the model's choice, log 26), `pc` stays in
0 to 258 (R13, R77; D7, log 4), the last tick observed is never ahead of the tick input (R70, R178), and a state a step
answers carries no fatal error (R19). -/
def Obligations.StepKeepsTheInvariant : Prop :=
  ∀ s t : State, s.Inv → step s = .next t → t.Inv

/-- Two canonical memories that read alike at every address are the same data (the canonical form is the model's,
log 26). -/
def Obligations.CanonicalMemoryIsUnique : Prop :=
  ∀ m n : Memory, m.wf → n.wf → (∀ addr, m.read addr = n.read addr) → m = n

/-- The output stream only grows, by at most one event a step (R18; D17, log 14). -/
def Obligations.OutputOnlyGrows : Prop :=
  ∀ s t : State, step s = .next t → t.out = s.out ∨ ∃ e, t.out = s.out ++ [e]

/-- Where a running machine raises, `fault` is set to that error, `pc` is where it was, the output is what it was, the
run is not halted, and no further cycle is performed (R167; D20, log 17, log 18). -/
def Obligations.RaiseEndsTheRun : Prop :=
  ∀ (s w : State) (e : FatalError), s.fault = none → step s = .fault (.raised e w) →
    w.fault = some e ∧ w.pc = s.pc ∧ w.out = s.out ∧ w.servicing = s.servicing ∧ w.running = true ∧
    s.running = true ∧ step w = .fault (.raised e w)

/-- FL changes only in a cycle that executes CMP or IRET (R14). -/
def Obligations.FlagsChangeOnlyByCmpAndIret : Prop :=
  ∀ s t : State, s.Active → step s = .next t → t.fl ≠ s.fl →
    chosenLine s = none ∧ ∃ i, fetchDecode s = .ok i ∧ (i = .iret ∨ ∃ a b, i = .cmp a b)

/-- Where no environment step is to come, a byte of memory changes only in a cycle that delivers an interrupt or
executes ST, PUSH or CALL (R20, R47; C6). -/
def Obligations.MemoryChangesOnlyByStoresAndPushes : Prop :=
  ∀ s t : State, s.Active → s.schedule = [] → step s = .next t → ¬ SameMemory s t →
    chosenLine s ≠ none ∨ ∃ i, fetchDecode s = .ok i ∧
      ((∃ a b, i = .st a b) ∨ (∃ a, i = .push a) ∨ (∃ a, i = .call a))

/-- `servicing` is set to true only by a delivery and to false only by IRET, which clears it whether or not it was set;
no other instruction reads or writes it, and it is read by nothing but the interrupt check and the timer check: running
an instruction, a delivery or a key event with the bit set otherwise gives the same outcome but for that bit, and a
delivery does not save it (R15). -/
def Obligations.ServicingIsSetByDeliveryAndClearedByIret : Prop :=
  (∀ s t : State, s.Active → step s = .next t → s.servicing = false → t.servicing = true →
    ∃ i, chosenLine s = some i) ∧
  (∀ s t : State, s.Active → step s = .next t → s.servicing = true → t.servicing = false →
    chosenLine s = none ∧ fetchDecode s = .ok .iret) ∧
  (∀ (i : Instr) (s t : State) (b : Bool), exec i s = .next t →
    exec i { s with servicing := b } =
      .next { t with servicing := if i = .iret then false else b }) ∧
  (∀ s t : State, exec .iret s = .next t → t.servicing = false) ∧
  (∀ (i : Line) (s t : State) (b : Bool), deliver i s = .next t →
    t.servicing = true ∧ deliver i { s with servicing := b } = .next t) ∧
  (∀ (c : Byte) (s : State) (b : Bool), keyEvent c { s with servicing := b } = { keyEvent c s with servicing := b })

/-- `running` is set to false by HLT and by a stop request, and nothing sets it to true again; a cycle is performed only
while it is true (R16). That a step of a state whose `running` is false answers that same state, its inputs included, is
the model's choice (log 18, log 11). -/
def Obligations.RunningIsClearedForGood : Prop :=
  (∀ (i : Instr) (s t : State), exec i s = .next t → t.running = (s.running && i != .hlt)) ∧
  (∀ s : State, stopRequest s = { s with running := false }) ∧
  (∀ s t : State, step s = .next t → t.running = true → s.running = true) ∧
  (∀ s t : State, step s = .next t → s.running = false → t = s)

/-- An instruction with a register operand of 8 or more raises `Undefined(RegisterIndex)` on the first such operand,
whatever else it would do, and changes nothing (R54, R78; the fault is the spec's D5, log 2, the order D19, log 16). -/
def Obligations.OperandsThatNameNoRegisterRaise : Prop :=
  ∀ (i : Instr) (s : State) (v : Byte), i.regOperands.find? (fun x => decide (8 ≤ x.toNat)) = some v →
    RaisesOnly (exec i s) (.undefined .registerIndex v.toNat) s

/-- Who moves the PC (R77): an `ALU` or `DataOrStack` instruction that completes leaves `pc` one past its last operand
byte, with no wrap; INT falls through by two (the categories and counts are D2 and D3, log 1; no wrap is D7, log 4). -/
def Obligations.PcAdvancesPastTheInstruction : Prop :=
  ∀ (i : Instr) (s t : State), exec i s = .next t →
    (i.category ≠ .controlFlow → t.pc = s.pc + i.operandCount + 1) ∧ (∀ a, i = .int a → t.pc = s.pc + 2)

/-! ### Memory and stack primitives -/

/-- `MemRead` and `MemWrite` (R31, R32): in range a read gives the byte last written there and changes nothing, a write
changes that cell and no other; out of range each raises `OutOfBoundsAccess` of the address. -/
def Obligations.MemoryAccesses : Prop :=
  ∀ (s : State) (addr : Nat) (v : Byte) (k : Byte → Result), s.mem.wf →
    (addr < 256 → memRead addr s k = k (s.mem.read addr) ∧
      ∃ m : Memory, memWrite addr v s = .next { s with mem := m } ∧ m.wf ∧ m.read addr = v ∧
        ∀ b, b ≠ addr → m.read b = s.mem.read b) ∧
    (256 ≤ addr → RaisesOnly (memRead addr s k) (.outOfBoundsAccess addr) s ∧
      RaisesOnly (memWrite addr v s) (.outOfBoundsAccess addr) s)

/-- `Push(v)` (R37): refused with nothing changed where SP is 0; otherwise SP is one lower, the byte is at the new SP,
and nothing else changes. -/
def Obligations.PushPrimitive : Prop :=
  ∀ (s : State) (v : Byte), s.mem.wf →
    (s.reg 7 = 0 → RaisesOnly (push v s) .stackOverflow s) ∧
    (s.reg 7 ≠ 0 → ∃ m : Memory, push v s = .next { s with regs := s.regs.set 7 (s.reg 7 - 1), mem := m } ∧ m.wf ∧
      m.read (s.reg 7 - 1).toNat = v ∧ ∀ addr, addr ≠ (s.reg 7 - 1).toNat → m.read addr = s.mem.read addr)

/-- `Pop()` (R38): refused with nothing changed where SP is 0xF4 or more; otherwise it hands on the byte at SP with SP
one higher, without a wrap, and nothing else changed. -/
def Obligations.PopPrimitive : Prop :=
  ∀ (s : State) (k : Byte → State → Result),
    (244 ≤ (s.reg 7).toNat → RaisesOnly (pop s k) .stackUnderflow s) ∧
    ((s.reg 7).toNat < 244 →
      pop s k = k (s.mem.read (s.reg 7).toNat) { s with regs := s.regs.set 7 (s.reg 7 + 1) } ∧
      (s.reg 7 + 1).toNat = (s.reg 7).toNat + 1)

/-- The stack law (R39): bytes pushed come back in reverse order and SP is what it was, where there is room and SP was at
most 0xF4; from SP = 0xF4 exactly 244 pushes fit and the 245th raises `StackOverflow` (C1). -/
def Obligations.PushedBytesPopInReverse : Prop :=
  (∀ (vs : List Byte) (s : State), s.mem.wf → vs.length ≤ (s.reg 7).toNat → (s.reg 7).toNat ≤ 244 →
    ∃ t, pushAll vs s = .next t ∧ PopsReturn vs.reverse t { s with mem := t.mem }) ∧
  (∀ (vs : List Byte) (v : Byte) (s : State), s.reg 7 = 0xF4 → vs.length = 244 →
    ∃ t, pushAll vs s = .next t ∧ t.reg 7 = 0 ∧ RaisesOnly (push v t) .stackOverflow t)

/-! ### ALU -/

/-- The arithmetic laws of R105 for all 14 ALU instructions on every pair of registers, the same register twice
included: each completes (DIV and MOD for a non-zero divisor), writes its result to the first register (CMP: to FL), and
changes nothing else but `pc`. That the whole byte is the shift count is also the spec's D22 (log 19). -/
def Obligations.AluLaws : Prop :=
  ∀ (s : State) (ra rb : Reg),
    let a := regByte ra
    let b := regByte rb
    let p := (s.reg ra).toNat
    let q := (s.reg rb).toNat
    WritesRegister (.add a b) s ra (BitVec.ofNat 8 ((p + q) % 256)) ∧
    WritesRegister (.sub a b) s ra (BitVec.ofNat 8 (if q ≤ p then p - q else p + 256 - q)) ∧
    WritesRegister (.mul a b) s ra (BitVec.ofNat 8 ((p * q) % 256)) ∧
    (1 ≤ q → WritesRegister (.div a b) s ra (BitVec.ofNat 8 (p / q))) ∧
    (1 ≤ q → WritesRegister (.mod a b) s ra (BitVec.ofNat 8 (p - q * (p / q)))) ∧
    (q = 0 → RaisesOnly (exec (.div a b) s) .divisionByZero s ∧ RaisesOnly (exec (.mod a b) s) .divisionByZero s) ∧
    (∃ v : Byte, WritesRegister (.and a b) s ra v ∧
      ∀ i < 8, v.getLsbD i = ((s.reg ra).getLsbD i && (s.reg rb).getLsbD i)) ∧
    (∃ v : Byte, WritesRegister (.or a b) s ra v ∧
      ∀ i < 8, v.getLsbD i = ((s.reg ra).getLsbD i || (s.reg rb).getLsbD i)) ∧
    (∃ v : Byte, WritesRegister (.xor a b) s ra v ∧
      ∀ i < 8, v.getLsbD i = ((s.reg ra).getLsbD i ^^ (s.reg rb).getLsbD i)) ∧
    WritesRegister (.shl a b) s ra (BitVec.ofNat 8 ((p * 2 ^ q) % 256)) ∧
    (8 ≤ q → WritesRegister (.shl a b) s ra 0) ∧
    WritesRegister (.shr a b) s ra (BitVec.ofNat 8 (p / 2 ^ q)) ∧
    (8 ≤ q → WritesRegister (.shr a b) s ra 0) ∧
    WritesRegister (.inc a) s ra (BitVec.ofNat 8 ((p + 1) % 256)) ∧
    WritesRegister (.dec a) s ra (BitVec.ofNat 8 (if 1 ≤ p then p - 1 else 255)) ∧
    WritesRegister (.not a) s ra (BitVec.ofNat 8 (255 - p)) ∧
    WritesFlags (.cmp a b) s (if p = q then 1 else if p > q then 2 else 4)

/-- `DivisionByZero` (R164): raised by DIV and MOD exactly when both operands name registers and the second one's
register holds 0 (R94, R95). That both operands must name registers first is R54 and R78 (the spec's D5, log 2, and
D19, log 16). -/
def Obligations.DivisionByZeroExactlyOnZeroDivisor : Prop :=
  ∀ (a b : Byte) (s : State),
    (Raises (exec (.div a b) s) .divisionByZero ↔
      NamesReg a ∧ ∃ rb, b = regByte rb ∧ s.reg rb = 0) ∧
    (Raises (exec (.mod a b) s) .divisionByZero ↔
      NamesReg a ∧ ∃ rb, b = regByte rb ∧ s.reg rb = 0)

/-- CMP leaves FL at exactly one of 1, 2, 4, whatever it held, and no other ALU instruction touches FL; a quotient times
its divisor plus the remainder is the dividend (R14, R90, R95, R104). -/
def Obligations.FlagsAndDivisionLaws : Prop :=
  (∀ (a b : Byte) (s t : State), exec (.cmp a b) s = .next t → t.fl = 1 ∨ t.fl = 2 ∨ t.fl = 4) ∧
  (∀ (i : Instr) (s t : State), i.category = .alu → (∀ a b, i ≠ .cmp a b) → exec i s = .next t → t.fl = s.fl) ∧
  (∀ (ra rb : Reg) (s t u : State), exec (.div (regByte ra) (regByte rb)) s = .next t →
    exec (.mod (regByte ra) (regByte rb)) s = .next u →
    (t.reg ra).toNat * (s.reg rb).toNat + (u.reg ra).toNat = (s.reg ra).toNat)

/-! ### Data movement and stack instructions -/

/-- LDI and LD (R111, R112; what LD does is the spec's D4, log 20): the immediate as it stands, or the byte at the address
in the second register, is written to the first register; nothing else changes but `pc`, three further. -/
def Obligations.LoadsWriteTheirRegister : Prop :=
  ∀ (s : State) (ra rb : Reg) (n : Byte),
    exec (.ldi (regByte ra) n) s = .next { s with regs := s.regs.set ra n, pc := s.pc + 3 } ∧
    exec (.ld (regByte ra) (regByte rb)) s =
      .next { s with regs := s.regs.set ra (s.mem.read (s.reg rb).toNat), pc := s.pc + 3 }

/-- ST (R113; what it does is the spec's D4, log 20): the second register's byte is stored at the address in the first;
no register changes, every other byte of memory reads as before, and the stored byte is what the next fetch of that cell
gives: where it encodes an instruction, that instruction is decoded there (R45). -/
def Obligations.StoreWritesOneByte : Prop :=
  ∀ (s : State) (ra rb : Reg), s.mem.wf → ∃ m : Memory,
    exec (.st (regByte ra) (regByte rb)) s = .next { s with mem := m, pc := s.pc + 3 } ∧ m.wf ∧
    m.read (s.reg ra).toNat = s.reg rb ∧ (∀ addr, addr ≠ (s.reg ra).toNat → m.read addr = s.mem.read addr) ∧
    (∀ t : State, t.mem = m → t.byteAt? (s.reg ra).toNat = some (s.reg rb) ∧
      ∀ i, t.pc = (s.reg ra).toNat → encode i = [s.reg rb] → fetchDecode t = .ok i)

/-- PUSH (R114): the register's value before SP moves is stored one below SP, so `PUSH R7` stores the old SP (D16,
log 13); with SP = 0 it raises `StackOverflow` and changes nothing. -/
def Obligations.PushInstruction : Prop :=
  ∀ (s : State) (ra : Reg), s.mem.wf →
    (s.reg 7 ≠ 0 → ∃ m : Memory,
      exec (.push (regByte ra)) s = .next { s with regs := s.regs.set 7 (s.reg 7 - 1), mem := m, pc := s.pc + 2 } ∧
      m.wf ∧ m.read (s.reg 7 - 1).toNat = s.reg ra ∧
      (∀ addr, addr ≠ (s.reg 7 - 1).toNat → m.read addr = s.mem.read addr)) ∧
    (s.reg 7 = 0 → RaisesOnly (exec (.push (regByte ra)) s) .stackOverflow s)

/-- POP (R115): SP moves up, then the register is written, so `POP R7` leaves the popped byte in SP (D16, log 13); with SP
at 0xF4 or above it raises `StackUnderflow` and changes nothing. -/
def Obligations.PopInstruction : Prop :=
  ∀ (s : State) (ra : Reg),
    ((s.reg 7).toNat < 244 → exec (.pop (regByte ra)) s =
      .next { s with
        regs := (s.regs.set 7 (s.reg 7 + 1)).set ra (s.mem.read (s.reg 7).toNat), pc := s.pc + 2 }) ∧
    (244 ≤ (s.reg 7).toNat → RaisesOnly (exec (.pop (regByte ra)) s) .stackUnderflow s)

/-! ### Control transfer -/

/-- JMP and the six conditional jumps (R120 to R127): the target is the byte in the register; a jump is taken by
comparing the whole byte FL with 1, 2 or 4, else `pc` is two further; nothing but `pc` changes (JNE as the complement of
JEQ is the spec's D9, log 6; whole-byte comparison D10, log 6). -/
def Obligations.JumpsPlaceThePc : Prop :=
  ∀ (s : State) (r : Reg),
    let target := (s.reg r).toNat
    exec (.jmp (regByte r)) s = .next { s with pc := target } ∧
    exec (.jeq (regByte r)) s = .next { s with pc := if s.fl = 1 then target else s.pc + 2 } ∧
    exec (.jne (regByte r)) s = .next { s with pc := if s.fl ≠ 1 then target else s.pc + 2 } ∧
    exec (.jgt (regByte r)) s = .next { s with pc := if s.fl = 2 then target else s.pc + 2 } ∧
    exec (.jge (regByte r)) s = .next { s with pc := if s.fl = 2 ∨ s.fl = 1 then target else s.pc + 2 } ∧
    exec (.jlt (regByte r)) s = .next { s with pc := if s.fl = 4 then target else s.pc + 2 } ∧
    exec (.jle (regByte r)) s = .next { s with pc := if s.fl = 4 ∨ s.fl = 1 then target else s.pc + 2 }

/-- CALL (R128): the return address is pushed as one byte, then `pc` is the register's value after the push (D25,
log 13); a return address of 256 raises `Undefined(PcNotByte)` (D8, log 5) and SP = 0 raises `StackOverflow`, with
nothing changed. -/
def Obligations.CallPushesTheReturnAddress : Prop :=
  ∀ (s : State) (r : Reg), s.mem.wf →
    (s.pc + 2 < 256 → s.reg 7 ≠ 0 → ∃ m : Memory,
      exec (.call (regByte r)) s =
        .next { s with
          regs := s.regs.set 7 (s.reg 7 - 1), mem := m,
          pc := (if r = 7 then s.reg 7 - 1 else s.reg r).toNat } ∧
      m.wf ∧ (m.read (s.reg 7 - 1).toNat).toNat = s.pc + 2 ∧
      (∀ addr, addr ≠ (s.reg 7 - 1).toNat → m.read addr = s.mem.read addr)) ∧
    (256 ≤ s.pc + 2 → RaisesOnly (exec (.call (regByte r)) s) (.undefined .pcNotByte (s.pc + 2)) s) ∧
    (s.pc + 2 < 256 → s.reg 7 = 0 → RaisesOnly (exec (.call (regByte r)) s) .stackOverflow s)

/-- RET (R129): `pc` is the popped byte and SP one higher, nothing else changes, `servicing` included (D24, log 21); with
SP at 0xF4 or above it raises `StackUnderflow` and changes nothing. -/
def Obligations.RetPopsThePc : Prop :=
  ∀ s : State,
    ((s.reg 7).toNat < 244 → exec .ret s =
      .next { s with regs := s.regs.set 7 (s.reg 7 + 1), pc := (s.mem.read (s.reg 7).toNat).toNat }) ∧
    (244 ≤ (s.reg 7).toNat → RaisesOnly (exec .ret s) .stackUnderflow s)

/-- A subroutine that leaves SP and the byte on top of the stack as it found them returns to the instruction after the
CALL with SP restored, whatever else it changed (R128, R129, R130). -/
def Obligations.RetReturnsPastTheCall : Prop :=
  ∀ (s t u : State) (r : Reg), s.mem.wf → (s.reg 7).toNat ≤ 244 → exec (.call (regByte r)) s = .next t →
    u.reg 7 = t.reg 7 → u.mem.read (t.reg 7).toNat = t.mem.read (t.reg 7).toNat →
    exec .ret u = .next { u with regs := u.regs.set 7 (s.reg 7), pc := s.pc + 2 }

/-! ### System and output instructions -/

/-- INT (R141): the pending bit of the line is set in R6 whatever the mask, `servicing` or the bit was, the other bits are
kept, and `pc` is two further; a line number of 8 or more raises `Undefined(InterruptLine)` (D6, log 3) and changes
nothing. Bit n is line n by D11 (log 7). -/
def Obligations.IntSetsThePendingBit : Prop :=
  ∀ (s : State) (r : Reg),
    ((s.reg r).toNat < 8 → ∃ v : Byte,
      exec (.int (regByte r)) s = .next { s with regs := s.regs.set 6 v, pc := s.pc + 2 } ∧
      ∀ j < 8, v.getLsbD j = ((s.reg 6).getLsbD j || decide (j = (s.reg r).toNat))) ∧
    (8 ≤ (s.reg r).toNat →
      RaisesOnly (exec (.int (regByte r)) s) (.undefined .interruptLine (s.reg r).toNat) s)

/-- IRET (R142): from SP at most 0xEB the nine bytes at SP upward are, in order, R6 down to R0, FL and `pc`; SP is nine
higher, `servicing` is false whatever it was (D24, log 21), and memory and the rest are unchanged. -/
def Obligations.IretRestoresTheContext : Prop :=
  ∀ s : State, (s.reg 7).toNat ≤ 0xEB → ∃ t : State,
    exec .iret s = .next t ∧
    (∀ r : Reg, r ≠ 7 → t.reg r = s.mem.read ((s.reg 7).toNat + 6 - r.val)) ∧
    (t.reg 7).toNat = (s.reg 7).toNat + 9 ∧
    t.fl = s.mem.read ((s.reg 7).toNat + 7) ∧ t.pc = (s.mem.read ((s.reg 7).toNat + 8)).toNat ∧
    t.servicing = false ∧ t.running = s.running ∧ t.out = s.out ∧ t.mem = s.mem ∧ SameHidden s t

/-- IRET with SP above 0xEB raises `StackUnderflow` part of the way through: SP has reached 0xF4 (or was above it and
stays), the registers popped before, and FL where its pop came before, are written, `pc`, `servicing` and memory are
unchanged (R142, R167; D20, log 17). -/
def Obligations.IretUnderflowKeepsThePopsDone : Prop :=
  ∀ s : State, 0xEB < (s.reg 7).toNat → ∃ w : State,
    exec .iret s = .fault (.raised .stackUnderflow w) ∧ w.fault = some .stackUnderflow ∧
    (w.reg 7).toNat = max 244 (s.reg 7).toNat ∧
    (∀ r : Reg, r ≠ 7 → w.reg r =
      if (s.reg 7).toNat + 6 - r.val < 244 then s.mem.read ((s.reg 7).toNat + 6 - r.val) else s.reg r) ∧
    w.fl = (if (s.reg 7).toNat + 7 < 244 then s.mem.read ((s.reg 7).toNat + 7) else s.fl) ∧
    w.pc = s.pc ∧ w.servicing = s.servicing ∧ w.mem = s.mem ∧ w.out = s.out

/-- HLT clears `running`, NOP does nothing, PRN and PRA append their event with the register's byte; each changes nothing
else but `pc`, which moves past the instruction, at 255 too (R143 to R146; the advance of HLT is D3, log 1, events
instead of text are D17, log 14). -/
def Obligations.MachineControlAndOutput : Prop :=
  ∀ (s : State) (r : Reg),
    exec .hlt s = .next { s with running := false, pc := s.pc + 1 } ∧
    exec .nop s = .next { s with pc := s.pc + 1 } ∧
    exec (.prn (regByte r)) s = .next { s with out := s.out ++ [.num (s.reg r)], pc := s.pc + 2 } ∧
    exec (.pra (regByte r)) s = .next { s with out := s.out ++ [.chr (s.reg r)], pc := s.pc + 2 }

/-! ### Frames -/

/-- Frame of the instructions that write one register: every other register, FL, the control state and every byte of
memory are unchanged (R90, R110). -/
def Obligations.RegisterInstructionsFrame : Prop :=
  ∀ (a b : Byte) (s t : State) (i : Instr),
    i ∈ [.add a b, .sub a b, .mul a b, .div a b, .mod a b, .and a b, .or a b, .xor a b, .shl a b, .shr a b, .inc a,
      .dec a, .not a, .ldi a b, .ld a b] → exec i s = .next t →
    ∃ ra, a = regByte ra ∧ SameRegsExcept [ra] s t ∧ t.fl = s.fl ∧ SameControl s t ∧ SameMemory s t

/-- Frame of the instructions that write no register: the registers and every byte of memory are unchanged; FL only CMP
writes, `running` only HLT, `out` only PRN and PRA (R90, R120, R140, R143 to R146). -/
def Obligations.NoRegisterInstructionsFrame : Prop :=
  ∀ (a b : Byte) (s t : State) (i : Instr),
    i ∈ [.cmp a b, .jmp a, .jeq a, .jne a, .jgt a, .jge a, .jlt a, .jle a, .hlt, .nop, .prn a, .pra a] →
    exec i s = .next t →
    SameRegsExcept [] s t ∧ SameMemory s t ∧ SameHidden s t ∧ t.servicing = s.servicing ∧
    (i ≠ .cmp a b → t.fl = s.fl) ∧ (i ≠ .hlt → t.running = s.running) ∧
    (i ≠ .prn a → i ≠ .pra a → t.out = s.out)

/-- Frame of the instructions that store: ST stores at the byte in its first register and changes no register; PUSH and
CALL store at the byte one below SP and change no register but SP; FL, the control state and every other byte of memory
are unchanged (R110, R113, R114, R120, R128). -/
def Obligations.StoringInstructionsFrame : Prop :=
  ∀ (a b : Byte) (s t : State),
    (exec (.st a b) s = .next t → ∃ ra, a = regByte ra ∧ SameRegsExcept [] s t ∧
      SameMemoryExcept (s.reg ra).toNat s t ∧ t.fl = s.fl ∧ SameControl s t) ∧
    (∀ i, i ∈ [Instr.push a, .call a] → exec i s = .next t → SameRegsExcept [7] s t ∧
      SameMemoryExcept (s.reg 7 - 1).toNat s t ∧ t.fl = s.fl ∧ SameControl s t)

/-- Frame of the instructions that pop, and of INT: POP changes its register and SP, RET only SP, IRET every register
but leaves `running`, `out` and memory, INT only R6; POP, RET and INT leave FL and the control state, and none of the
four changes a byte of memory (R38, R110, R129, R141, R142). -/
def Obligations.PoppingInstructionsFrame : Prop :=
  ∀ (a : Byte) (s t : State),
    (exec (.pop a) s = .next t → ∃ ra, a = regByte ra ∧ SameRegsExcept [ra, 7] s t ∧ t.fl = s.fl ∧
      SameControl s t ∧ SameMemory s t) ∧
    (exec .ret s = .next t → SameRegsExcept [7] s t ∧ t.fl = s.fl ∧ SameControl s t ∧ SameMemory s t) ∧
    (exec .iret s = .next t → SameMemory s t ∧ SameHidden s t ∧ t.running = s.running ∧ t.out = s.out) ∧
    (exec (.int a) s = .next t → SameRegsExcept [6] s t ∧ t.fl = s.fl ∧ SameControl s t ∧ SameMemory s t)

/-! ### The interrupt controller -/

/-- The line chosen (R173): none while `servicing`; otherwise the least line whose bits in R5 and R6 are both 1, or none
where no line has both (that bit i, counted from the least significant, is line i is the spec's D11, log 7). -/
def Obligations.ChosenLineIsTheLeastDeliverable : Prop :=
  ∀ s : State,
    (∀ i : Line, chosenLine s = some i ↔
      s.servicing = false ∧ (s.reg 5).getLsbD i = true ∧ (s.reg 6).getLsbD i = true ∧
      ∀ j : Line, j < i → ¬ ((s.reg 5).getLsbD j = true ∧ (s.reg 6).getLsbD j = true)) ∧
    (chosenLine s = none ↔ s.servicing = true ∨
      ∀ j : Line, ¬ ((s.reg 5).getLsbD j = true ∧ (s.reg 6).getLsbD j = true))

/-- `SetPending(i)` and `ClearPending(i)` (R172; bit i is line i by D11, log 7): each changes bit i of R6 and nothing else,
and doing it twice is doing it once. -/
def Obligations.PendingBitsAreSetAndCleared : Prop :=
  ∀ (s : State) (i : Line),
    (∃ v : Byte, setPending i s = { s with regs := s.regs.set 6 v } ∧
      ∀ j < 8, v.getLsbD j = ((s.reg 6).getLsbD j || decide (j = i.val))) ∧
    (∃ v : Byte, clearPending i s = { s with regs := s.regs.set 6 v } ∧
      ∀ j < 8, v.getLsbD j = ((s.reg 6).getLsbD j && decide (j ≠ i.val))) ∧
    setPending i (setPending i s) = setPending i s ∧ clearPending i (clearPending i s) = clearPending i s

/-- Taking an interrupt (R175): the nine cells below SP hold `pc`, FL, R0 to R5 and R6 with the line's bit cleared; SP is
nine lower, `pc` is the byte at 0xF8 + i, `servicing` is true; FL, R0 to R5, `running`, `out` and every other byte of
memory are unchanged. A `pc` of 256 or more raises `Undefined(PcNotByte)` with nothing changed (D8, log 5). -/
def Obligations.DeliverSavesTheContext : Prop :=
  ∀ (s : State) (i : Line), s.mem.wf →
    (s.pc < 256 → 9 ≤ (s.reg 7).toNat → ∃ t : State,
      deliver i s = .next t ∧ t.mem.wf ∧
      (t.mem.read ((s.reg 7).toNat - 1)).toNat = s.pc ∧ t.mem.read ((s.reg 7).toNat - 2) = s.fl ∧
      (∀ r : Reg, r.val ≤ 5 → t.mem.read ((s.reg 7).toNat - 3 - r.val) = s.reg r ∧ t.reg r = s.reg r) ∧
      t.mem.read ((s.reg 7).toNat - 9) = t.reg 6 ∧
      (∀ j < 8, (t.reg 6).getLsbD j = ((s.reg 6).getLsbD j && decide (j ≠ i.val))) ∧
      (t.reg 7).toNat = (s.reg 7).toNat - 9 ∧ t.pc = (t.mem.read (0xF8 + i.val)).toNat ∧
      t.servicing = true ∧ t.fl = s.fl ∧ t.running = s.running ∧ t.out = s.out ∧ SameHidden s t ∧
      (∀ addr, addr < (s.reg 7).toNat - 9 ∨ (s.reg 7).toNat ≤ addr → t.mem.read addr = s.mem.read addr)) ∧
    (256 ≤ s.pc → RaisesOnly (deliver i s) (.undefined .pcNotByte s.pc) s)

/-- A delivery with SP below 9 raises `StackOverflow` part of the way through: the pushes that had room are done, SP is 0,
the pending bit is already cleared, `pc` and `servicing` are unchanged (R175, R167; D20, log 17). -/
def Obligations.DeliverOverflowKeepsThePushesDone : Prop :=
  ∀ (s : State) (i : Line), s.mem.wf → s.pc < 256 → (s.reg 7).toNat < 9 → ∃ w : State,
    deliver i s = .fault (.raised .stackOverflow w) ∧ w.reg 7 = 0 ∧ w.reg 6 = (clearPending i s).reg 6 ∧
    (∀ (k : Nat) (h : k < (interruptFrame (clearPending i s)).length), k < (s.reg 7).toNat →
      w.mem.read ((s.reg 7).toNat - 1 - k) = (interruptFrame (clearPending i s))[k]) ∧
    w.pc = s.pc ∧ w.servicing = s.servicing ∧ w.fl = s.fl ∧ w.out = s.out

/-- Return from a handler (R177): whatever the handler did, if SP is as at its entry and it left the nine bytes of the
frame alone, IRET gives R0 to R5, SP, FL and `pc` exactly as before the delivery and R6 as before but for the delivered
line's bit, which is clear (C7); the handler's memory and output stay, and the core is in Normal. -/
def Obligations.HandlerReturnRestoresTheContext : Prop :=
  ∀ (s t u : State) (i : Line), s.mem.wf → (s.reg 7).toNat ≤ 244 → deliver i s = .next t →
    u.reg 7 = t.reg 7 →
    (∀ addr, (t.reg 7).toNat ≤ addr → addr < (s.reg 7).toNat → u.mem.read addr = t.mem.read addr) →
    exec .iret u = .next { u with regs := (clearPending i s).regs, fl := s.fl, pc := s.pc, servicing := false }

/-- The timer check (R178): no advance changes nothing; an advance is observed in every case and sets line 0's pending bit
exactly where line 0 is enabled and the core is in Normal, once whatever the advance (that other ticks are dropped is
the spec's D13, log 9). -/
def Obligations.TimerCheckRaisesLineZero : Prop :=
  ∀ s : State,
    (s.tick = s.lastTick → timerCheck Config.tickDeferred s = s) ∧
    (s.tick ≠ s.lastTick → (s.reg 5).getLsbD 0 = true → s.servicing = false →
      timerCheck Config.tickDeferred s = { s with lastTick := s.tick, regs := s.regs.set 6 (s.reg 6 ||| 1) }) ∧
    (s.tick ≠ s.lastTick → (s.reg 5).getLsbD 0 = false ∨ s.servicing = true →
      timerCheck Config.tickDeferred s = { s with lastTick := s.tick })

/-- The key event (R179): accepted exactly where line 1 is enabled and not pending, then line 1's bit is set and the code is
at 0xF4; otherwise dropped whole. `servicing` is not consulted (D15, log 11). -/
def Obligations.KeyEventIsAcceptedOrDropped : Prop :=
  ∀ (s : State) (code : Byte), s.mem.wf →
    ((s.reg 5).getLsbD 1 = true → (s.reg 6).getLsbD 1 = false → ∃ m : Memory,
      keyEvent code s = { s with regs := s.regs.set 6 (s.reg 6 ||| 2), mem := m } ∧ m.wf ∧
      m.read 0xF4 = code ∧ (∀ addr, addr ≠ 0xF4 → m.read addr = s.mem.read addr)) ∧
    ((s.reg 5).getLsbD 1 = false ∨ (s.reg 6).getLsbD 1 = true → keyEvent code s = s)

/-- A stop request among the environment steps of the boundary after a cycle halts the run there, whatever steps stand
beside it: the cycle is completed, `running` is false, the request changes nothing else, and no further cycle is
performed, which the model says by the next step answering the same state (R71, R82; D23; the schedule is log 11, a
step of a halted state log 18, the steps listed after the request log 29). Without one the run goes on. -/
def Obligations.StopRequestHaltsAtTheBoundary : Prop :=
  ∀ (s t : State) (es : List EnvStep) (rest : List (List EnvStep)), s.Active → cycle s = .next t →
    t.schedule = es :: rest → t.running = true →
    (.stopRequest ∈ es → ∃ u, step s = .next u ∧ u.Halted ∧ u.schedule = rest ∧ u.pc = t.pc ∧ u.fl = t.fl ∧
      u.servicing = t.servicing ∧ u.out = t.out ∧ step u = .next u) ∧
    (es = [.stopRequest] → step s = .next { t with schedule := rest, running := false }) ∧
    (.stopRequest ∉ es → ∃ u, step s = .next u ∧ u.Active)

/-! ### Decoding that fails, and the cycle boundary -/

/-- Where the run goes on, no line is chosen and the bytes at `pc` decode to no instruction, the step raises, and nothing
but the timer check has happened: in each case the error is that of the failing fetch or of the decoder, which is
`OutOfBoundsAccess(pc)` for `pc` at 256 or above, `UnrecognizedOpcode` with the byte and `pc` for an opcode byte without a
row, and `OutOfBoundsAccess(256)` for operand bytes that reach past 255 (R72 to R75, R161, R165, R167, R178; D1, log 1;
D7, log 4). -/
def Obligations.StepRaisesWhereDecodingFails : Prop :=
  ∀ s : State, s.Active → chosenLine s = none →
    (∀ e, fetchDecode s = .error e → RaisesOnly (step s) (decodeFault e s) (timerCheck false s)) ∧
    (256 ≤ s.pc → RaisesOnly (step s) (.outOfBoundsAccess s.pc) (timerCheck false s)) ∧
    (s.pc < 256 → lookupOpcode opcodeMap (s.mem.read s.pc) = none →
      RaisesOnly (step s) (.unrecognizedOpcode (s.mem.read s.pc) s.pc) (timerCheck false s)) ∧
    (∀ row, s.pc < 256 → lookupOpcode opcodeMap (s.mem.read s.pc) = some row → 256 ≤ s.pc + row.format.count →
      RaisesOnly (step s) (.outOfBoundsAccess 256) (timerCheck false s))

/-- The cycle boundary: after a cycle that leaves the core running, the environment steps of the first list of the
schedule are applied one after another, each in full, and the list is gone; `tick` has grown by the sum of the advances,
`running` is false exactly where a stop request is among them, and `pc`, FL, `servicing`, `out`, `last_tick` and every
register but R6 and every byte but that at 0xF4 are as the cycle left them (R70, R82, R178, R179, R203; D15, D23). The
schedule, and that nothing is applied where the cycle ended the run, are the model's choice (log 11), and so is that the
steps listed after a stop request still act (log 29). -/
def Obligations.BoundaryAppliesTheEnvironmentSteps : Prop :=
  (∀ s t : State, s.Active → cycle s = .next t → step s = .next (boundary t)) ∧
  (∀ t : State, t.running = false → boundary t = t) ∧
  (∀ (t : State) (es : List EnvStep) (rest : List (List EnvStep)), t.running = true → t.schedule = es :: rest →
    boundary t = es.foldl (fun u e => envStep e u) { t with schedule := rest } ∧
    (boundary t).tick = t.tick + (es.map fun e => match e with
      | .advanceTick k => k
      | .keyEvent _ => 0
      | .stopRequest => 0).sum ∧
    ((boundary t).running = false ↔ .stopRequest ∈ es) ∧
    (boundary t).schedule = rest ∧ (boundary t).pc = t.pc ∧ (boundary t).fl = t.fl ∧
    (boundary t).servicing = t.servicing ∧ (boundary t).out = t.out ∧ (boundary t).lastTick = t.lastTick ∧
    (boundary t).fault = t.fault ∧ SameRegsExcept [6] t (boundary t) ∧ SameMemoryExcept 0xF4 t (boundary t)) ∧
  (∀ (u : State) (k : Nat) (code : Byte),
    envStep (.advanceTick k) u = { u with tick := u.tick + k } ∧ envStep (.keyEvent code) u = keyEvent code u ∧
    envStep .stopRequest u = { u with running := false })
end

