-- ==== Sys2Proof/Laws/Memory.lean ====
section
/-! SUPPORT. Memory: a read after a write, and the canonical form kept by every operation. -/

namespace Sys2Proof.Machine

@[simp] theorem Memory.read_nil (addr : Nat) : Memory.read [] addr = Memory.unlisted := rfl

theorem Memory.read_pair (k : Nat) (w : Byte) (rest : Memory) (addr : Nat) :
    Memory.read ((k, w) :: rest) addr = if k = addr then w else Memory.read rest addr := rfl

theorem Memory.read_cons_of_ne {addr b : Nat} (v : Byte) (rest : Memory) (h : b ≠ addr) :
    Memory.read (Memory.cons addr v rest) b = Memory.read rest b := by
  unfold Memory.cons
  split
  · rfl
  · rw [Memory.read_pair, if_neg (Ne.symm h)]

/-- An address below every listed one reads as an unlisted address. -/
theorem Memory.read_of_below {m : Memory} {addr : Nat} (h : ∀ c ∈ m, addr < c.1) :
    Memory.read m addr = Memory.unlisted := by
  induction m with
  | nil => rfl
  | cons c rest ih =>
    obtain ⟨k, w⟩ := c
    have hk : addr < k := h (k, w) (by simp)
    rw [Memory.read_pair, if_neg (by omega)]
    exact ih fun d hd => h d (by simp [hd])

theorem Memory.read_cons_self {addr : Nat} (v : Byte) {rest : Memory} (h : ∀ c ∈ rest, addr < c.1) :
    Memory.read (Memory.cons addr v rest) addr = v := by
  unfold Memory.cons
  split
  · rename_i hv; rw [Memory.read_of_below h, hv]
  · rw [Memory.read_pair, if_pos rfl]

/-- A write leaves every other address alone, whatever the list. -/
theorem Memory.read_write_of_ne (m : Memory) {addr b : Nat} (v : Byte) (h : b ≠ addr) :
    (m.write addr v).read b = m.read b := by
  induction m with
  | nil => exact Memory.read_cons_of_ne v [] h
  | cons c rest ih =>
    obtain ⟨k, w⟩ := c
    unfold Memory.write
    split
    · exact Memory.read_cons_of_ne v _ h
    · split
      · rename_i _ hk
        rw [Memory.read_cons_of_ne v _ h, Memory.read_pair, if_neg (by omega)]
      · rw [Memory.read_pair, Memory.read_pair, ih]

/-- What the canonical form says. -/
theorem Memory.wf_iff {m : Memory} :
    m.wf ↔ m.Pairwise (fun c d => c.1 < d.1) ∧ ∀ c ∈ m, c.1 < 256 ∧ c.2 ≠ Memory.unlisted := by
  simp only [Memory.wf, Memory.isCanonical, decide_eq_true_eq]

/-- The addresses after the head of a canonical memory are above it. -/
theorem Memory.wf_head {c : Host.Cell} {rest : Memory} (h : Memory.wf (c :: rest)) : ∀ d ∈ rest, c.1 < d.1 :=
  (List.pairwise_cons.mp (Memory.wf_iff.mp h).1).1

theorem Memory.wf_tail {c : Host.Cell} {rest : Memory} (h : Memory.wf (c :: rest)) : Memory.wf rest :=
  have hw := Memory.wf_iff.mp h
  Memory.wf_iff.mpr ⟨(List.pairwise_cons.mp hw.1).2, fun d hd => hw.2 d (by simp [hd])⟩

theorem Memory.wf_nil : Memory.wf [] := by decide

theorem Memory.wf_cons {addr : Nat} {v : Byte} {rest : Memory} (ha : addr < 256)
    (hbelow : ∀ c ∈ rest, addr < c.1) (h : Memory.wf rest) : Memory.wf (Memory.cons addr v rest) := by
  unfold Memory.cons
  split
  · exact h
  · rename_i hv
    have hw := Memory.wf_iff.mp h
    refine Memory.wf_iff.mpr ⟨List.pairwise_cons.mpr ⟨hbelow, hw.1⟩, fun d hd => ?_⟩
    rcases List.mem_cons.mp hd with rfl | hd
    · exact ⟨ha, hv⟩
    · exact hw.2 d hd

/-- A read of the address just written gives the byte written. -/
theorem Memory.read_write_self {m : Memory} (h : m.wf) (addr : Nat) (v : Byte) :
    (m.write addr v).read addr = v := by
  induction m with
  | nil => exact Memory.read_cons_self v (by simp)
  | cons c rest ih =>
    obtain ⟨k, w⟩ := c
    have hhead := Memory.wf_head h
    unfold Memory.write
    split
    · rename_i hlt
      refine Memory.read_cons_self v fun d hd => ?_
      rcases List.mem_cons.mp hd with rfl | hd
      · exact hlt
      · exact Nat.lt_trans hlt (hhead d hd)
    · split
      · rename_i _ heq
        subst heq
        exact Memory.read_cons_self v hhead
      · rename_i _ hne
        rw [Memory.read_pair, if_neg (Ne.symm hne)]
        exact ih (Memory.wf_tail h)

theorem Memory.mem_cons_addr {addr : Nat} {v : Byte} {rest : Memory} {d : Host.Cell}
    (h : d ∈ Memory.cons addr v rest) : d.1 = addr ∨ d ∈ rest := by
  unfold Memory.cons at h
  split at h
  · exact .inr h
  · rcases List.mem_cons.mp h with rfl | h
    · exact .inl rfl
    · exact .inr h

/-- The addresses listed after a write are those listed before and the one written. -/
theorem Memory.mem_write_addr {m : Memory} {addr : Nat} {v : Byte} {d : Host.Cell} (h : d ∈ m.write addr v) :
    d.1 = addr ∨ d ∈ m := by
  induction m with
  | nil => exact Memory.mem_cons_addr h
  | cons c rest ih =>
    obtain ⟨k, w⟩ := c
    unfold Memory.write at h
    split at h
    · exact Memory.mem_cons_addr h
    · split at h
      · rcases Memory.mem_cons_addr h with h | h
        · exact .inl h
        · exact .inr (by simp [h])
      · rcases List.mem_cons.mp h with rfl | h
        · exact .inr (by simp)
        · rcases ih h with h | h
          · exact .inl h
          · exact .inr (by simp [h])

/-- A write to an address that exists keeps the canonical form. -/
theorem Memory.wf_write {m : Memory} {addr : Nat} (v : Byte) (h : m.wf) (ha : addr < 256) : (m.write addr v).wf := by
  induction m with
  | nil => exact Memory.wf_cons ha (by simp) Memory.wf_nil
  | cons c rest ih =>
    obtain ⟨k, w⟩ := c
    have hhead := Memory.wf_head h
    unfold Memory.write
    split
    · rename_i hlt
      refine Memory.wf_cons ha (fun d hd => ?_) h
      rcases List.mem_cons.mp hd with rfl | hd
      · exact hlt
      · exact Nat.lt_trans hlt (hhead d hd)
    · split
      · rename_i _ heq
        subst heq
        exact Memory.wf_cons ha hhead (Memory.wf_tail h)
      · rename_i hge hne
        have ihw := Memory.wf_iff.mp (ih (Memory.wf_tail h))
        refine Memory.wf_iff.mpr ⟨List.pairwise_cons.mpr ⟨fun d hd => ?_, ihw.1⟩, fun d hd => ?_⟩
        · rcases Memory.mem_write_addr hd with hd | hd
          · show k < d.1
            omega
          · exact hhead d hd
        · rcases List.mem_cons.mp hd with rfl | hd
          · exact (Memory.wf_iff.mp h).2 (k, w) (by simp)
          · exact ihw.2 d hd

/-- Consecutive writes keep the canonical form where they stay in the address space. -/
theorem Memory.wf_writeBytes {m : Memory} {addr : Nat} (vs : List Byte) (h : m.wf) (ha : addr + vs.length ≤ 256) :
    (m.writeBytes addr vs).wf := by
  induction vs generalizing m addr with
  | nil => exact h
  | cons v vs ih =>
    simp only [List.length_cons] at ha
    exact ih (Memory.wf_write v h (by omega)) (by omega)

end Sys2Proof.Machine
end

