-- ==== Sys2Proof/Laws/State.lean ====
section
/-! SUPPORT. One lemma for each field after each update of State, so that no proof unfolds a record update. -/

namespace Sys2Proof.Machine

@[simp] theorem State.setReg_reg (s : State) (r q : Reg) (v : Byte) :
    (s.setReg r v).reg q = if q = r then v else s.reg q := by
  by_cases h : q = r
  · subst h; simp [State.reg, State.setReg]
  · have : r.val ≠ q.val := fun e => h (Fin.ext e.symm)
    simp [State.reg, State.setReg, h, this]

theorem State.sp_eq (s : State) : s.sp = s.reg 7 := rfl

theorem State.im_eq (s : State) : s.im = s.reg 5 := rfl

theorem State.is_eq (s : State) : s.is = s.reg 6 := rfl

@[simp] theorem State.setReg_sp (s : State) (r : Reg) (v : Byte) :
    (s.setReg r v).sp = if 7 = r then v else s.sp := State.setReg_reg s r 7 v

@[simp] theorem State.setReg_im (s : State) (r : Reg) (v : Byte) :
    (s.setReg r v).im = if 5 = r then v else s.im := State.setReg_reg s r 5 v

@[simp] theorem State.setReg_is (s : State) (r : Reg) (v : Byte) :
    (s.setReg r v).is = if 6 = r then v else s.is := State.setReg_reg s r 6 v

/-- Writing a register twice keeps the second value. -/
@[simp] theorem State.setReg_setReg_same (s : State) (r : Reg) (v w : Byte) :
    (s.setReg r v).setReg r w = s.setReg r w := by
  simp [State.setReg]

/-- Two states are equal when every register and every other field is. -/
theorem State.ext_reg {s t : State} (hreg : ∀ r, s.reg r = t.reg r) (hpc : s.pc = t.pc) (hfl : s.fl = t.fl)
    (hservicing : s.servicing = t.servicing) (hrunning : s.running = t.running)
    (hlastTick : s.lastTick = t.lastTick) (hout : s.out = t.out) (hfault : s.fault = t.fault)
    (hmem : s.mem = t.mem) (htick : s.tick = t.tick) (hschedule : s.schedule = t.schedule) : s = t := by
  cases s; cases t
  simp only [State.mk.injEq]
  refine ⟨?_, hpc, hfl, hservicing, hrunning, hlastTick, hout, hfault, hmem, htick, hschedule⟩
  exact Vector.ext fun i hi => hreg ⟨i, hi⟩

@[simp] theorem State.setReg_pc (s : State) (r : Reg) (v : Byte) : (s.setReg r v).pc = s.pc := rfl

@[simp] theorem State.setReg_fl (s : State) (r : Reg) (v : Byte) : (s.setReg r v).fl = s.fl := rfl

@[simp] theorem State.setReg_servicing (s : State) (r : Reg) (v : Byte) : (s.setReg r v).servicing = s.servicing := rfl

@[simp] theorem State.setReg_running (s : State) (r : Reg) (v : Byte) : (s.setReg r v).running = s.running := rfl

@[simp] theorem State.setReg_lastTick (s : State) (r : Reg) (v : Byte) : (s.setReg r v).lastTick = s.lastTick := rfl

@[simp] theorem State.setReg_out (s : State) (r : Reg) (v : Byte) : (s.setReg r v).out = s.out := rfl

@[simp] theorem State.setReg_fault (s : State) (r : Reg) (v : Byte) : (s.setReg r v).fault = s.fault := rfl

@[simp] theorem State.setReg_mem (s : State) (r : Reg) (v : Byte) : (s.setReg r v).mem = s.mem := rfl

@[simp] theorem State.setReg_tick (s : State) (r : Reg) (v : Byte) : (s.setReg r v).tick = s.tick := rfl

@[simp] theorem State.setReg_schedule (s : State) (r : Reg) (v : Byte) : (s.setReg r v).schedule = s.schedule := rfl

@[simp] theorem State.setPc_reg (s : State) (n : Nat) (q : Reg) : (s.setPc n).reg q = s.reg q := rfl

@[simp] theorem State.setPc_sp (s : State) (n : Nat) : (s.setPc n).sp = s.sp := rfl

@[simp] theorem State.setPc_im (s : State) (n : Nat) : (s.setPc n).im = s.im := rfl

@[simp] theorem State.setPc_is (s : State) (n : Nat) : (s.setPc n).is = s.is := rfl

@[simp] theorem State.setPc_pc (s : State) (n : Nat) : (s.setPc n).pc = n := rfl

@[simp] theorem State.setPc_fl (s : State) (n : Nat) : (s.setPc n).fl = s.fl := rfl

@[simp] theorem State.setPc_servicing (s : State) (n : Nat) : (s.setPc n).servicing = s.servicing := rfl

@[simp] theorem State.setPc_running (s : State) (n : Nat) : (s.setPc n).running = s.running := rfl

@[simp] theorem State.setPc_lastTick (s : State) (n : Nat) : (s.setPc n).lastTick = s.lastTick := rfl

@[simp] theorem State.setPc_out (s : State) (n : Nat) : (s.setPc n).out = s.out := rfl

@[simp] theorem State.setPc_fault (s : State) (n : Nat) : (s.setPc n).fault = s.fault := rfl

@[simp] theorem State.setPc_mem (s : State) (n : Nat) : (s.setPc n).mem = s.mem := rfl

@[simp] theorem State.setPc_tick (s : State) (n : Nat) : (s.setPc n).tick = s.tick := rfl

@[simp] theorem State.setPc_schedule (s : State) (n : Nat) : (s.setPc n).schedule = s.schedule := rfl

@[simp] theorem State.advance_reg (s : State) (n : Nat) (q : Reg) : (s.advance n).reg q = s.reg q := rfl

@[simp] theorem State.advance_sp (s : State) (n : Nat) : (s.advance n).sp = s.sp := rfl

@[simp] theorem State.advance_im (s : State) (n : Nat) : (s.advance n).im = s.im := rfl

@[simp] theorem State.advance_is (s : State) (n : Nat) : (s.advance n).is = s.is := rfl

@[simp] theorem State.advance_pc (s : State) (n : Nat) : (s.advance n).pc = s.pc + n := rfl

@[simp] theorem State.advance_fl (s : State) (n : Nat) : (s.advance n).fl = s.fl := rfl

@[simp] theorem State.advance_servicing (s : State) (n : Nat) : (s.advance n).servicing = s.servicing := rfl

@[simp] theorem State.advance_running (s : State) (n : Nat) : (s.advance n).running = s.running := rfl

@[simp] theorem State.advance_lastTick (s : State) (n : Nat) : (s.advance n).lastTick = s.lastTick := rfl

@[simp] theorem State.advance_out (s : State) (n : Nat) : (s.advance n).out = s.out := rfl

@[simp] theorem State.advance_fault (s : State) (n : Nat) : (s.advance n).fault = s.fault := rfl

@[simp] theorem State.advance_mem (s : State) (n : Nat) : (s.advance n).mem = s.mem := rfl

@[simp] theorem State.advance_tick (s : State) (n : Nat) : (s.advance n).tick = s.tick := rfl

@[simp] theorem State.advance_schedule (s : State) (n : Nat) : (s.advance n).schedule = s.schedule := rfl

@[simp] theorem State.setFl_reg (s : State) (v : Byte) (q : Reg) : (s.setFl v).reg q = s.reg q := rfl

@[simp] theorem State.setFl_sp (s : State) (v : Byte) : (s.setFl v).sp = s.sp := rfl

@[simp] theorem State.setFl_im (s : State) (v : Byte) : (s.setFl v).im = s.im := rfl

@[simp] theorem State.setFl_is (s : State) (v : Byte) : (s.setFl v).is = s.is := rfl

@[simp] theorem State.setFl_pc (s : State) (v : Byte) : (s.setFl v).pc = s.pc := rfl

@[simp] theorem State.setFl_fl (s : State) (v : Byte) : (s.setFl v).fl = v := rfl

@[simp] theorem State.setFl_servicing (s : State) (v : Byte) : (s.setFl v).servicing = s.servicing := rfl

@[simp] theorem State.setFl_running (s : State) (v : Byte) : (s.setFl v).running = s.running := rfl

@[simp] theorem State.setFl_lastTick (s : State) (v : Byte) : (s.setFl v).lastTick = s.lastTick := rfl

@[simp] theorem State.setFl_out (s : State) (v : Byte) : (s.setFl v).out = s.out := rfl

@[simp] theorem State.setFl_fault (s : State) (v : Byte) : (s.setFl v).fault = s.fault := rfl

@[simp] theorem State.setFl_mem (s : State) (v : Byte) : (s.setFl v).mem = s.mem := rfl

@[simp] theorem State.setFl_tick (s : State) (v : Byte) : (s.setFl v).tick = s.tick := rfl

@[simp] theorem State.setFl_schedule (s : State) (v : Byte) : (s.setFl v).schedule = s.schedule := rfl

@[simp] theorem State.setServicing_reg (s : State) (b : Bool) (q : Reg) : (s.setServicing b).reg q = s.reg q := rfl

@[simp] theorem State.setServicing_sp (s : State) (b : Bool) : (s.setServicing b).sp = s.sp := rfl

@[simp] theorem State.setServicing_im (s : State) (b : Bool) : (s.setServicing b).im = s.im := rfl

@[simp] theorem State.setServicing_is (s : State) (b : Bool) : (s.setServicing b).is = s.is := rfl

@[simp] theorem State.setServicing_pc (s : State) (b : Bool) : (s.setServicing b).pc = s.pc := rfl

@[simp] theorem State.setServicing_fl (s : State) (b : Bool) : (s.setServicing b).fl = s.fl := rfl

@[simp] theorem State.setServicing_servicing (s : State) (b : Bool) : (s.setServicing b).servicing = b := rfl

@[simp] theorem State.setServicing_running (s : State) (b : Bool) : (s.setServicing b).running = s.running := rfl

@[simp] theorem State.setServicing_lastTick (s : State) (b : Bool) : (s.setServicing b).lastTick = s.lastTick := rfl

@[simp] theorem State.setServicing_out (s : State) (b : Bool) : (s.setServicing b).out = s.out := rfl

@[simp] theorem State.setServicing_fault (s : State) (b : Bool) : (s.setServicing b).fault = s.fault := rfl

@[simp] theorem State.setServicing_mem (s : State) (b : Bool) : (s.setServicing b).mem = s.mem := rfl

@[simp] theorem State.setServicing_tick (s : State) (b : Bool) : (s.setServicing b).tick = s.tick := rfl

@[simp] theorem State.setServicing_schedule (s : State) (b : Bool) : (s.setServicing b).schedule = s.schedule := rfl

@[simp] theorem State.stop_reg (s : State) (q : Reg) : (s.stop).reg q = s.reg q := rfl

@[simp] theorem State.stop_sp (s : State) : (s.stop).sp = s.sp := rfl

@[simp] theorem State.stop_im (s : State) : (s.stop).im = s.im := rfl

@[simp] theorem State.stop_is (s : State) : (s.stop).is = s.is := rfl

@[simp] theorem State.stop_pc (s : State) : (s.stop).pc = s.pc := rfl

@[simp] theorem State.stop_fl (s : State) : (s.stop).fl = s.fl := rfl

@[simp] theorem State.stop_servicing (s : State) : (s.stop).servicing = s.servicing := rfl

@[simp] theorem State.stop_running (s : State) : (s.stop).running = false := rfl

@[simp] theorem State.stop_lastTick (s : State) : (s.stop).lastTick = s.lastTick := rfl

@[simp] theorem State.stop_out (s : State) : (s.stop).out = s.out := rfl

@[simp] theorem State.stop_fault (s : State) : (s.stop).fault = s.fault := rfl

@[simp] theorem State.stop_mem (s : State) : (s.stop).mem = s.mem := rfl

@[simp] theorem State.stop_tick (s : State) : (s.stop).tick = s.tick := rfl

@[simp] theorem State.stop_schedule (s : State) : (s.stop).schedule = s.schedule := rfl

@[simp] theorem State.observeTick_reg (s : State) (q : Reg) : (s.observeTick).reg q = s.reg q := rfl

@[simp] theorem State.observeTick_sp (s : State) : (s.observeTick).sp = s.sp := rfl

@[simp] theorem State.observeTick_im (s : State) : (s.observeTick).im = s.im := rfl

@[simp] theorem State.observeTick_is (s : State) : (s.observeTick).is = s.is := rfl

@[simp] theorem State.observeTick_pc (s : State) : (s.observeTick).pc = s.pc := rfl

@[simp] theorem State.observeTick_fl (s : State) : (s.observeTick).fl = s.fl := rfl

@[simp] theorem State.observeTick_servicing (s : State) : (s.observeTick).servicing = s.servicing := rfl

@[simp] theorem State.observeTick_running (s : State) : (s.observeTick).running = s.running := rfl

@[simp] theorem State.observeTick_lastTick (s : State) : (s.observeTick).lastTick = s.tick := rfl

@[simp] theorem State.observeTick_out (s : State) : (s.observeTick).out = s.out := rfl

@[simp] theorem State.observeTick_fault (s : State) : (s.observeTick).fault = s.fault := rfl

@[simp] theorem State.observeTick_mem (s : State) : (s.observeTick).mem = s.mem := rfl

@[simp] theorem State.observeTick_tick (s : State) : (s.observeTick).tick = s.tick := rfl

@[simp] theorem State.observeTick_schedule (s : State) : (s.observeTick).schedule = s.schedule := rfl

@[simp] theorem State.emit_reg (s : State) (e : OutputEvent) (q : Reg) : (s.emit e).reg q = s.reg q := rfl

@[simp] theorem State.emit_sp (s : State) (e : OutputEvent) : (s.emit e).sp = s.sp := rfl

@[simp] theorem State.emit_im (s : State) (e : OutputEvent) : (s.emit e).im = s.im := rfl

@[simp] theorem State.emit_is (s : State) (e : OutputEvent) : (s.emit e).is = s.is := rfl

@[simp] theorem State.emit_pc (s : State) (e : OutputEvent) : (s.emit e).pc = s.pc := rfl

@[simp] theorem State.emit_fl (s : State) (e : OutputEvent) : (s.emit e).fl = s.fl := rfl

@[simp] theorem State.emit_servicing (s : State) (e : OutputEvent) : (s.emit e).servicing = s.servicing := rfl

@[simp] theorem State.emit_running (s : State) (e : OutputEvent) : (s.emit e).running = s.running := rfl

@[simp] theorem State.emit_lastTick (s : State) (e : OutputEvent) : (s.emit e).lastTick = s.lastTick := rfl

@[simp] theorem State.emit_out (s : State) (e : OutputEvent) : (s.emit e).out = s.out ++ [e] := rfl

@[simp] theorem State.emit_fault (s : State) (e : OutputEvent) : (s.emit e).fault = s.fault := rfl

@[simp] theorem State.emit_mem (s : State) (e : OutputEvent) : (s.emit e).mem = s.mem := rfl

@[simp] theorem State.emit_tick (s : State) (e : OutputEvent) : (s.emit e).tick = s.tick := rfl

@[simp] theorem State.emit_schedule (s : State) (e : OutputEvent) : (s.emit e).schedule = s.schedule := rfl

@[simp] theorem State.setFault_reg (s : State) (e : FatalError) (q : Reg) : (s.setFault e).reg q = s.reg q := rfl

@[simp] theorem State.setFault_sp (s : State) (e : FatalError) : (s.setFault e).sp = s.sp := rfl

@[simp] theorem State.setFault_im (s : State) (e : FatalError) : (s.setFault e).im = s.im := rfl

@[simp] theorem State.setFault_is (s : State) (e : FatalError) : (s.setFault e).is = s.is := rfl

@[simp] theorem State.setFault_pc (s : State) (e : FatalError) : (s.setFault e).pc = s.pc := rfl

@[simp] theorem State.setFault_fl (s : State) (e : FatalError) : (s.setFault e).fl = s.fl := rfl

@[simp] theorem State.setFault_servicing (s : State) (e : FatalError) : (s.setFault e).servicing = s.servicing := rfl

@[simp] theorem State.setFault_running (s : State) (e : FatalError) : (s.setFault e).running = s.running := rfl

@[simp] theorem State.setFault_lastTick (s : State) (e : FatalError) : (s.setFault e).lastTick = s.lastTick := rfl

@[simp] theorem State.setFault_out (s : State) (e : FatalError) : (s.setFault e).out = s.out := rfl

@[simp] theorem State.setFault_fault (s : State) (e : FatalError) : (s.setFault e).fault = some e := rfl

@[simp] theorem State.setFault_mem (s : State) (e : FatalError) : (s.setFault e).mem = s.mem := rfl

@[simp] theorem State.setFault_tick (s : State) (e : FatalError) : (s.setFault e).tick = s.tick := rfl

@[simp] theorem State.setFault_schedule (s : State) (e : FatalError) : (s.setFault e).schedule = s.schedule := rfl

@[simp] theorem State.setMem_reg (s : State) (a : Nat) (v : Byte) (q : Reg) : (s.setMem a v).reg q = s.reg q := rfl

@[simp] theorem State.setMem_sp (s : State) (a : Nat) (v : Byte) : (s.setMem a v).sp = s.sp := rfl

@[simp] theorem State.setMem_im (s : State) (a : Nat) (v : Byte) : (s.setMem a v).im = s.im := rfl

@[simp] theorem State.setMem_is (s : State) (a : Nat) (v : Byte) : (s.setMem a v).is = s.is := rfl

@[simp] theorem State.setMem_pc (s : State) (a : Nat) (v : Byte) : (s.setMem a v).pc = s.pc := rfl

@[simp] theorem State.setMem_fl (s : State) (a : Nat) (v : Byte) : (s.setMem a v).fl = s.fl := rfl

@[simp] theorem State.setMem_servicing (s : State) (a : Nat) (v : Byte) : (s.setMem a v).servicing = s.servicing := rfl

@[simp] theorem State.setMem_running (s : State) (a : Nat) (v : Byte) : (s.setMem a v).running = s.running := rfl

@[simp] theorem State.setMem_lastTick (s : State) (a : Nat) (v : Byte) : (s.setMem a v).lastTick = s.lastTick := rfl

@[simp] theorem State.setMem_out (s : State) (a : Nat) (v : Byte) : (s.setMem a v).out = s.out := rfl

@[simp] theorem State.setMem_fault (s : State) (a : Nat) (v : Byte) : (s.setMem a v).fault = s.fault := rfl

@[simp] theorem State.setMem_mem (s : State) (a : Nat) (v : Byte) : (s.setMem a v).mem = s.mem.write a v := rfl

@[simp] theorem State.setMem_tick (s : State) (a : Nat) (v : Byte) : (s.setMem a v).tick = s.tick := rfl

@[simp] theorem State.setMem_schedule (s : State) (a : Nat) (v : Byte) : (s.setMem a v).schedule = s.schedule := rfl

@[simp] theorem State.advanceTick_reg (s : State) (k : Nat) (q : Reg) : (s.advanceTick k).reg q = s.reg q := rfl

@[simp] theorem State.advanceTick_sp (s : State) (k : Nat) : (s.advanceTick k).sp = s.sp := rfl

@[simp] theorem State.advanceTick_im (s : State) (k : Nat) : (s.advanceTick k).im = s.im := rfl

@[simp] theorem State.advanceTick_is (s : State) (k : Nat) : (s.advanceTick k).is = s.is := rfl

@[simp] theorem State.advanceTick_pc (s : State) (k : Nat) : (s.advanceTick k).pc = s.pc := rfl

@[simp] theorem State.advanceTick_fl (s : State) (k : Nat) : (s.advanceTick k).fl = s.fl := rfl

@[simp] theorem State.advanceTick_servicing (s : State) (k : Nat) : (s.advanceTick k).servicing = s.servicing := rfl

@[simp] theorem State.advanceTick_running (s : State) (k : Nat) : (s.advanceTick k).running = s.running := rfl

@[simp] theorem State.advanceTick_lastTick (s : State) (k : Nat) : (s.advanceTick k).lastTick = s.lastTick := rfl

@[simp] theorem State.advanceTick_out (s : State) (k : Nat) : (s.advanceTick k).out = s.out := rfl

@[simp] theorem State.advanceTick_fault (s : State) (k : Nat) : (s.advanceTick k).fault = s.fault := rfl

@[simp] theorem State.advanceTick_mem (s : State) (k : Nat) : (s.advanceTick k).mem = s.mem := rfl

@[simp] theorem State.advanceTick_tick (s : State) (k : Nat) : (s.advanceTick k).tick = s.tick + k := rfl

@[simp] theorem State.advanceTick_schedule (s : State) (k : Nat) : (s.advanceTick k).schedule = s.schedule := rfl

@[simp] theorem State.setSchedule_reg (s : State) (es : List (List EnvStep)) (q : Reg) : (s.setSchedule es).reg q = s.reg q := rfl

@[simp] theorem State.setSchedule_sp (s : State) (es : List (List EnvStep)) : (s.setSchedule es).sp = s.sp := rfl

@[simp] theorem State.setSchedule_im (s : State) (es : List (List EnvStep)) : (s.setSchedule es).im = s.im := rfl

@[simp] theorem State.setSchedule_is (s : State) (es : List (List EnvStep)) : (s.setSchedule es).is = s.is := rfl

@[simp] theorem State.setSchedule_pc (s : State) (es : List (List EnvStep)) : (s.setSchedule es).pc = s.pc := rfl

@[simp] theorem State.setSchedule_fl (s : State) (es : List (List EnvStep)) : (s.setSchedule es).fl = s.fl := rfl

@[simp] theorem State.setSchedule_servicing (s : State) (es : List (List EnvStep)) : (s.setSchedule es).servicing = s.servicing := rfl

@[simp] theorem State.setSchedule_running (s : State) (es : List (List EnvStep)) : (s.setSchedule es).running = s.running := rfl

@[simp] theorem State.setSchedule_lastTick (s : State) (es : List (List EnvStep)) : (s.setSchedule es).lastTick = s.lastTick := rfl

@[simp] theorem State.setSchedule_out (s : State) (es : List (List EnvStep)) : (s.setSchedule es).out = s.out := rfl

@[simp] theorem State.setSchedule_fault (s : State) (es : List (List EnvStep)) : (s.setSchedule es).fault = s.fault := rfl

@[simp] theorem State.setSchedule_mem (s : State) (es : List (List EnvStep)) : (s.setSchedule es).mem = s.mem := rfl

@[simp] theorem State.setSchedule_tick (s : State) (es : List (List EnvStep)) : (s.setSchedule es).tick = s.tick := rfl

@[simp] theorem State.setSchedule_schedule (s : State) (es : List (List EnvStep)) : (s.setSchedule es).schedule = es := rfl

end Sys2Proof.Machine
end

