-- ==== Sys2Proof/Laws/Ops.lean ====
section
/-! SUPPORT. One lemma for each shared operation that says what it can do; proofs cite these and do not unfold the
operations. -/

namespace Sys2Proof.Machine

/-! ### Sequencing -/

@[simp] theorem andThen_next (s : State) (k : State → Result) : andThen (.next s) k = k s := rfl

@[simp] theorem andThen_raise (e : FatalError) (s : State) (k : State → Result) :
    andThen (raise e s) k = raise e s := rfl

/-- A sequence completes exactly when both its parts do. -/
theorem andThen_eq_next {r : Result} {k : State → Result} {u : State} :
    andThen r k = .next u ↔ ∃ t, r = .next t ∧ k t = .next u := by
  cases r <;> simp [andThen]

/-- A sequence raises exactly when its first part does, or its second part does after the first completed. -/
theorem andThen_eq_fault {r : Result} {k : State → Result} {f : Fault} :
    andThen r k = .fault f ↔ r = .fault f ∨ ∃ t, r = .next t ∧ k t = .fault f := by
  cases r <;> simp [andThen]

@[simp] theorem raise_ne_next (e : FatalError) (s t : State) : raise e s ≠ .next t := by simp [raise]

theorem raise_eq_fault {e e' : FatalError} {s w : State} :
    raise e s = .fault (.raised e' w) ↔ e = e' ∧ s.setFault e = w := by simp [raise]

/-! ### Memory accesses: an address that is a byte is in range -/

@[simp] theorem memRead_byte (b : Byte) (s : State) (k : Byte → Result) :
    memRead b.toNat s k = k (s.mem.read b.toNat) := by
  have := b.isLt
  simp [memRead, this]

@[simp] theorem memWrite_byte (b v : Byte) (s : State) : memWrite b.toNat v s = .next (s.setMem b.toNat v) := by
  have := b.isLt
  simp [memWrite, this]

@[simp] theorem memRead_vector (i : Line) (s : State) (k : Byte → Result) :
    memRead (Config.vectorBase + i.val) s k = k (s.mem.read (248 + i.val)) := by
  have := i.isLt
  rw [memRead, if_pos (by simp; omega)]

/-- A write keeps the canonical form of memory. -/
theorem memWrite_keeps_wf {addr : Nat} {v : Byte} {s t : State} (h : memWrite addr v s = .next t) (hs : s.mem.wf) :
    t.mem.wf := by
  unfold memWrite at h
  split at h
  · rename_i ha
    cases h
    exact Memory.wf_write v hs ha
  · simp at h

/-! ### Operands -/

theorem withReg_of_lt {v : Byte} (h : v.toNat < 8) (s : State) (k : Reg → Result) :
    withReg v s k = k ⟨v.toNat, h⟩ := by
  simp [withReg, h]

theorem withReg_of_ge {v : Byte} (h : 8 ≤ v.toNat) (s : State) (k : Reg → Result) :
    withReg v s k = raise (.undefined .registerIndex v.toNat) s := by
  simp [withReg, Nat.not_lt.mpr h]

/-- Where a register operand completes, it names a register. -/
theorem withReg_eq_next {v : Byte} {s : State} {k : Reg → Result} {t : State} :
    withReg v s k = .next t ↔ ∃ h : v.toNat < 8, k ⟨v.toNat, h⟩ = .next t := by
  by_cases h : v.toNat < 8 <;> simp [withReg, h]

/-- Where two register operands complete, both name registers. -/
theorem withRegs_eq_next {a b : Byte} {s : State} {k : Reg → Reg → Result} {t : State} :
    withRegs a b s k = .next t ↔
      ∃ (ha : a.toNat < 8) (hb : b.toNat < 8), k ⟨a.toNat, ha⟩ ⟨b.toNat, hb⟩ = .next t := by
  simp [withRegs, withReg_eq_next]

/-! ### Stack primitives -/

theorem sp_pred {b : Byte} (h : 0 < b.toNat) : (b - 1).toNat = b.toNat - 1 := by
  have := b.isLt
  simp [BitVec.toNat_sub]
  omega

theorem push_of_zero {v : Byte} {s : State} (h : s.sp = 0) : push v s = raise .stackOverflow s := by
  simp [push, h]

theorem push_of_ne {v : Byte} {s : State} (h : s.sp ≠ 0) :
    push v s = .next ((s.setReg 7 (s.sp - 1)).setMem (s.sp - 1).toNat v) := by
  rw [push, if_neg h, memWrite_byte]

/-- A push that completes had room, and did exactly this. -/
theorem push_eq_next {v : Byte} {s t : State} :
    push v s = .next t ↔ s.sp ≠ 0 ∧ t = (s.setReg 7 (s.sp - 1)).setMem (s.sp - 1).toNat v := by
  by_cases h : s.sp = 0
  · simp [push_of_zero h, h]
  · simp only [push_of_ne h, Host.Outcome.next.injEq, ne_eq, h, not_false_eq_true, true_and]
    exact eq_comm

theorem pop_of_ge {s : State} {k : Byte → State → Result} (h : 244 ≤ s.sp.toNat) :
    pop s k = raise .stackUnderflow s := by
  rw [pop, if_pos (by simpa [BitVec.le_def] using h)]

theorem pop_of_lt {s : State} (k : Byte → State → Result) (h : s.sp.toNat < 244) :
    pop s k = k (s.mem.read s.sp.toNat) (s.setReg 7 (s.sp + 1)) := by
  rw [pop, if_neg (by simp [BitVec.le_def]; omega), memRead_byte]

/-- A pop that completes had a byte to pop. -/
theorem pop_eq_next {s t : State} {k : Byte → State → Result} :
    pop s k = .next t ↔ s.sp.toNat < 244 ∧ k (s.mem.read s.sp.toNat) (s.setReg 7 (s.sp + 1)) = .next t := by
  by_cases h : s.sp.toNat < 244
  · simp [pop_of_lt k h, h]
  · simp [pop_of_ge (Nat.not_lt.mp h), h]

/-- Pushing a list where there is room for it: SP moves down by its length, only the cells below the old SP change,
and they hold the list from the top down. -/
theorem pushAll_of_room (vs : List Byte) (s : State) (h : vs.length ≤ s.sp.toNat) :
    ∃ m : Memory, pushAll vs s = .next { s with regs := s.regs.set 7 (s.sp - BitVec.ofNat 8 vs.length), mem := m } ∧
      (s.mem.wf → m.wf) ∧
      (∀ addr, addr < s.sp.toNat - vs.length ∨ s.sp.toNat ≤ addr → m.read addr = s.mem.read addr) ∧
      (s.mem.wf → ∀ (i : Nat) (hi : i < vs.length), m.read (s.sp.toNat - 1 - i) = vs[i]) := by
  induction vs generalizing s with
  | nil =>
    refine ⟨s.mem, ?_, id, fun _ _ => rfl, by simp⟩
    have : s.regs.set 7 s.sp = s.regs := by
      apply Vector.ext
      intro i hi
      by_cases h7 : i = 7
      · subst h7; simp [State.sp, State.reg]
      · simp [Ne.symm h7]
    simp [pushAll, this]
  | cons v vs ih =>
    simp only [List.length_cons] at h
    have hpos : s.sp ≠ 0 := fun e => by simp [e] at h
    have hsub : (s.sp - 1).toNat = s.sp.toNat - 1 := sp_pred (by omega)
    obtain ⟨m, hm, hwf, hsame, hread⟩ := ih ((s.setReg 7 (s.sp - 1)).setMem (s.sp - 1).toNat v) (by
      simp only [State.setMem_sp, State.setReg_sp, if_true, hsub]
      omega)
    have hsp : ((s.setReg 7 (s.sp - 1)).setMem (s.sp - 1).toNat v).sp.toNat = s.sp.toNat - 1 := by
      simp only [State.setMem_sp, State.setReg_sp, if_true, hsub]
    rw [hsp] at hsame hread
    refine ⟨m, ?_, ?_, ?_, ?_⟩
    · rw [pushAll, push_of_ne hpos, andThen_next, hm]
      have : s.sp - 1 - BitVec.ofNat 8 vs.length = s.sp - BitVec.ofNat 8 (vs.length + 1) := by
        apply BitVec.eq_of_toNat_eq
        have := s.sp.isLt
        simp [BitVec.toNat_sub]
        omega
      simp only [State.setMem_sp, State.setReg_sp, if_true, this]
      simp [State.setMem, State.setReg]
    · intro hs
      exact hwf (Memory.wf_write v hs (s.sp - 1).isLt)
    · intro addr ha
      simp only [List.length_cons] at ha
      rw [hsame addr (by omega)]
      simp only [State.setMem_mem, State.setReg_mem, hsub]
      exact Memory.read_write_of_ne _ v (by omega)
    · intro hs i hi
      cases i with
      | zero =>
        simp only [Nat.sub_zero, List.getElem_cons_zero]
        rw [hsame _ (by omega)]
        simp only [State.setMem_mem, State.setReg_mem, hsub]
        exact Memory.read_write_self hs _ v
      | succ j =>
        simp only [List.length_cons] at hi
        have hw : (((s.setReg 7 (s.sp - 1)).setMem (s.sp - 1).toNat v)).mem.wf :=
          Memory.wf_write v hs (s.sp - 1).isLt
        have := hread hw j (by omega)
        rw [show s.sp.toNat - 1 - (j + 1) = s.sp.toNat - 1 - 1 - j by omega]
        simpa using this

/-- A list that does not fit is not pushed whole. -/
theorem pushAll_eq_next_room {vs : List Byte} {s t : State} (h : pushAll vs s = .next t) :
    vs.length ≤ s.sp.toNat := by
  induction vs generalizing s with
  | nil => simp
  | cons v vs ih =>
    obtain ⟨u, hu, ht⟩ := andThen_eq_next.mp h
    obtain ⟨hne, rfl⟩ := push_eq_next.mp hu
    have := ih ht
    have hs := s.sp.isLt
    have h0 : s.sp.toNat ≠ 0 := fun e => hne (BitVec.eq_of_toNat_eq e)
    simp only [State.setMem_sp, State.setReg_sp, if_true, sp_pred (Nat.pos_of_ne_zero h0)] at this
    simp only [List.length_cons]
    omega

/-! ### What popping into registers leaves alone -/

/-- Popping into registers changes only registers. -/
theorem popRegs_eq_next {rs : List Reg} {s t : State} (h : popRegs rs s = .next t) :
    t = { s with regs := t.regs } := by
  induction rs generalizing s with
  | nil => cases h; rfl
  | cons r rs ih =>
    obtain ⟨-, h⟩ := pop_eq_next.mp h
    rw [ih h]
    rfl

/-! ### Interrupt lines and events -/

/-- The timer check changes at most the last observed tick and the pending mask. -/
theorem timerCheck_cases (d : Bool) (s : State) :
    timerCheck d s = s ∨ timerCheck d s = s.observeTick ∨
      timerCheck d s = setPending Config.timerLine s.observeTick := by
  unfold timerCheck
  split
  · exact .inl rfl
  · split
    · exact .inr (.inr rfl)
    · split
      · exact .inl rfl
      · exact .inr (.inl rfl)

@[simp] theorem timerCheck_mem (d : Bool) (s : State) : (timerCheck d s).mem = s.mem := by
  rcases timerCheck_cases d s with h | h | h <;> rw [h] <;> rfl

@[simp] theorem timerCheck_pc (d : Bool) (s : State) : (timerCheck d s).pc = s.pc := by
  rcases timerCheck_cases d s with h | h | h <;> rw [h] <;> rfl

/-- A key event is dropped whole or accepted whole. -/
theorem keyEvent_cases (c : Byte) (s : State) :
    keyEvent c s = s ∨ keyEvent c s = (setPending Config.keyLine s).setMem Config.keyAddr c := by
  unfold keyEvent
  split
  · exact .inr rfl
  · exact .inl rfl

/-- A key event keeps the canonical form of memory. -/
theorem keyEvent_keeps_wf {c : Byte} {s : State} (h : s.mem.wf) : (keyEvent c s).mem.wf := by
  rcases keyEvent_cases c s with e | e <;> rw [e]
  · exact h
  · exact Memory.wf_write c h (by decide)

end Sys2Proof.Machine
end

