-- ==== Sys2Proof/Laws/PerInstr.lean ====
section
/-! SUPPORT. One lemma for each constructor of Instr: its encoding is the opcode byte and as many operand bytes as its
operand count (R50, R53), and the row of its opcode in the opcode map has that count and its category (R56, R57). -/

namespace Sys2Proof.Laws.EncodedLength

/-- The encoding has one byte more than the operand count, and the opcode byte's row agrees on count and category. -/
def Statement (i : Instr) : Prop :=
  (encode i).length = i.operandCount + 1 ∧
  ∃ op row, (encode i)[0]? = some op ∧ lookupOpcode opcodeMap op = some row ∧
    row.format.count = i.operandCount ∧ row.category = i.category

theorem add (a b : Byte) : Statement (.add a b) := ⟨rfl, _, _, rfl, rfl, rfl, rfl⟩

theorem sub (a b : Byte) : Statement (.sub a b) := ⟨rfl, _, _, rfl, rfl, rfl, rfl⟩

theorem mul (a b : Byte) : Statement (.mul a b) := ⟨rfl, _, _, rfl, rfl, rfl, rfl⟩

theorem div (a b : Byte) : Statement (.div a b) := ⟨rfl, _, _, rfl, rfl, rfl, rfl⟩

theorem mod (a b : Byte) : Statement (.mod a b) := ⟨rfl, _, _, rfl, rfl, rfl, rfl⟩

theorem and (a b : Byte) : Statement (.and a b) := ⟨rfl, _, _, rfl, rfl, rfl, rfl⟩

theorem or (a b : Byte) : Statement (.or a b) := ⟨rfl, _, _, rfl, rfl, rfl, rfl⟩

theorem xor (a b : Byte) : Statement (.xor a b) := ⟨rfl, _, _, rfl, rfl, rfl, rfl⟩

theorem shl (a b : Byte) : Statement (.shl a b) := ⟨rfl, _, _, rfl, rfl, rfl, rfl⟩

theorem shr (a b : Byte) : Statement (.shr a b) := ⟨rfl, _, _, rfl, rfl, rfl, rfl⟩

theorem inc (a : Byte) : Statement (.inc a) := ⟨rfl, _, _, rfl, rfl, rfl, rfl⟩

theorem dec (a : Byte) : Statement (.dec a) := ⟨rfl, _, _, rfl, rfl, rfl, rfl⟩

theorem not (a : Byte) : Statement (.not a) := ⟨rfl, _, _, rfl, rfl, rfl, rfl⟩

theorem cmp (a b : Byte) : Statement (.cmp a b) := ⟨rfl, _, _, rfl, rfl, rfl, rfl⟩

theorem ldi (a b : Byte) : Statement (.ldi a b) := ⟨rfl, _, _, rfl, rfl, rfl, rfl⟩

theorem ld (a b : Byte) : Statement (.ld a b) := ⟨rfl, _, _, rfl, rfl, rfl, rfl⟩

theorem st (a b : Byte) : Statement (.st a b) := ⟨rfl, _, _, rfl, rfl, rfl, rfl⟩

theorem push (a : Byte) : Statement (.push a) := ⟨rfl, _, _, rfl, rfl, rfl, rfl⟩

theorem pop (a : Byte) : Statement (.pop a) := ⟨rfl, _, _, rfl, rfl, rfl, rfl⟩

theorem jmp (a : Byte) : Statement (.jmp a) := ⟨rfl, _, _, rfl, rfl, rfl, rfl⟩

theorem jeq (a : Byte) : Statement (.jeq a) := ⟨rfl, _, _, rfl, rfl, rfl, rfl⟩

theorem jne (a : Byte) : Statement (.jne a) := ⟨rfl, _, _, rfl, rfl, rfl, rfl⟩

theorem jgt (a : Byte) : Statement (.jgt a) := ⟨rfl, _, _, rfl, rfl, rfl, rfl⟩

theorem jge (a : Byte) : Statement (.jge a) := ⟨rfl, _, _, rfl, rfl, rfl, rfl⟩

theorem jlt (a : Byte) : Statement (.jlt a) := ⟨rfl, _, _, rfl, rfl, rfl, rfl⟩

theorem jle (a : Byte) : Statement (.jle a) := ⟨rfl, _, _, rfl, rfl, rfl, rfl⟩

theorem call (a : Byte) : Statement (.call a) := ⟨rfl, _, _, rfl, rfl, rfl, rfl⟩

theorem ret : Statement .ret := ⟨rfl, _, _, rfl, rfl, rfl, rfl⟩

theorem int (a : Byte) : Statement (.int a) := ⟨rfl, _, _, rfl, rfl, rfl, rfl⟩

theorem iret : Statement .iret := ⟨rfl, _, _, rfl, rfl, rfl, rfl⟩

theorem hlt : Statement .hlt := ⟨rfl, _, _, rfl, rfl, rfl, rfl⟩

theorem nop : Statement .nop := ⟨rfl, _, _, rfl, rfl, rfl, rfl⟩

theorem prn (a : Byte) : Statement (.prn a) := ⟨rfl, _, _, rfl, rfl, rfl, rfl⟩

theorem pra (a : Byte) : Statement (.pra a) := ⟨rfl, _, _, rfl, rfl, rfl, rfl⟩

end Sys2Proof.Laws.EncodedLength
end

