-- ==== Sys2Proof/Laws/Step.lean ====
section
/-! SUPPORT. What a step, a cycle, a delivery, an instruction, the timer check and a cycle boundary can do; proofs cite
these and do not unfold the step. -/

namespace Sys2Proof.Machine

/-! ### Operands and stack -/

theorem regByte_toNat (r : Reg) : (regByte r).toNat = r.val := by simp [regByte]; omega

/-- An operand byte that names a register hands that register on. -/
theorem withReg_regByte (r : Reg) (s : State) (k : Reg → Result) : withReg (regByte r) s k = k r := by
  have h : (regByte r).toNat < 8 := by have := regByte_toNat r; omega
  rw [withReg_of_lt h]
  congr 1
  exact Fin.ext (regByte_toNat r)

/-- Every operand byte below 8 is the byte of a register. -/
theorem eq_regByte {b : Byte} (h : b.toNat < 8) : b = regByte ⟨b.toNat, h⟩ := by simp [regByte]

/-- The pops of distinct registers other than SP, where there is room for all of them. -/
theorem popRegs_of_room (rs : List Reg) (s : State) (hnd : rs.Nodup) (h7 : 7 ∉ rs)
    (h : s.sp.toNat + rs.length ≤ 244) :
    ∃ t, popRegs rs s = .next t ∧ t.sp.toNat = s.sp.toNat + rs.length ∧
      (∀ (i : Nat) (hi : i < rs.length), t.reg rs[i] = s.mem.read (s.sp.toNat + i)) ∧
      ∀ r, r ∉ rs → r ≠ 7 → t.reg r = s.reg r := by
  induction rs generalizing s with
  | nil => exact ⟨s, rfl, rfl, by simp, fun _ _ _ => rfl⟩
  | cons q rs ih =>
    simp only [List.length_cons] at h
    have hq : (7 : Reg) ≠ q := fun e => h7 (by simp [e])
    have h7' : 7 ∉ rs := fun e => h7 (by simp [e])
    obtain ⟨hqr, hnd⟩ := List.nodup_cons.mp hnd
    have hs2 : ((s.setReg 7 (s.sp + 1)).setReg q (s.mem.read s.sp.toNat)).sp.toNat = s.sp.toNat + 1 := by
      rw [State.setReg_sp, if_neg hq]
      simp
      omega
    obtain ⟨t, ht, h1, h2, h3⟩ := ih ((s.setReg 7 (s.sp + 1)).setReg q (s.mem.read s.sp.toNat)) hnd h7'
      (by omega)
    refine ⟨t, by rw [popRegs, pop_of_lt _ (by omega)]; exact ht, by simp only [List.length_cons]; omega, ?_, ?_⟩
    · intro i hi
      cases i with
      | zero => simpa using h3 q hqr (Ne.symm hq)
      | succ i =>
        have := h2 i (by simpa using hi)
        rw [hs2] at this
        simpa [Nat.add_assoc, Nat.add_comm 1 i] using this
    · intro r hr hr7
      have hne : r ≠ q := fun e => hr (by simp [e])
      simpa [hne, hr7] using h3 r (fun e => hr (by simp [e])) hr7

/-! ### Instructions and deliveries -/

/-- An instruction that completes leaves the inputs, the observed tick and the fault alone, keeps memory canonical, and
puts `pc` at a byte or at most three further. -/
theorem exec_keeps {i : Instr} {s t : State} (h : exec i s = .next t) :
    SameHidden s t ∧ (s.mem.wf → t.mem.wf) ∧ t.pc ≤ max 255 (s.pc + 3) := by
  cases i <;>
    simp only [exec, execAdd, execSub, execMul, execDiv, execMod, execAnd, execOr, execXor, execShl, execShr,
      execInc, execDec, execNot, execCmp, execLdi, execLd, execSt, execPush, execPop, execJmp, execJeq, execJne,
      execJgt, execJge, execJlt, execJle, execCall, execRet, execInt, execIret, execHlt, execNop, execPrn, execPra,
      binaryAlu, unaryAlu, dividingAlu, jumpIf, returnFromInterrupt, withRegs_eq_next, withReg_eq_next, memRead_byte,
      memWrite_byte, andThen_next, andThen_eq_next, push_eq_next, pop_eq_next, Host.Outcome.next.injEq] at h
  case iret =>
    obtain ⟨u, hu, _, _, rfl⟩ := h
    rw [popRegs_eq_next hu]
    simp [SameHidden]
    omega
  case push =>
    obtain ⟨_, _, ⟨_, rfl⟩, rfl⟩ := h
    simp [SameHidden]
    exact fun h => Memory.wf_write _ h (Nat.mod_lt _ (by decide))
  case st =>
    obtain ⟨_, _, rfl⟩ := h
    simp [SameHidden]
    exact fun h => Memory.wf_write _ h (BitVec.isLt _)
  case call =>
    obtain ⟨_, h⟩ := h
    split at h
    · simp at h
    · simp only [andThen_eq_next, push_eq_next] at h
      obtain ⟨_, ⟨_, rfl⟩, h⟩ := h
      cases h
      simp [SameHidden]
      refine ⟨fun h => Memory.wf_write _ h (Nat.mod_lt _ (by decide)), ?_⟩
      split <;> omega
  case int =>
    obtain ⟨_, h⟩ := h
    split at h
    · cases h
      simp [setPending, SameHidden]
    · simp at h
  all_goals first
    | (obtain ⟨_, _, rfl⟩ := h; simp [SameHidden]; done)
    | (obtain ⟨_, rfl⟩ := h; simp [SameHidden]; done)
    | (obtain ⟨_, rfl⟩ := h; simp [SameHidden]; omega)
    | (obtain ⟨_, rfl⟩ := h; (split <;> simp [SameHidden]); omega)
    | (obtain ⟨_, _, h⟩ := h; split at h <;> simp at h; cases h; simp [SameHidden])

/-- A delivery that completes changes registers, memory, `pc` and `servicing` only, keeps memory canonical and puts `pc`
at a byte. -/
theorem deliver_keeps {i : Line} {s t : State} (h : deliver i s = .next t) :
    SameHidden s t ∧ t.running = s.running ∧ t.out = s.out ∧ t.fl = s.fl ∧ t.servicing = true ∧ t.pc ≤ 255 ∧
      (s.mem.wf → t.mem.wf) := by
  unfold deliver at h
  split at h
  · simp at h
  · simp only [andThen_eq_next, memRead_vector] at h
    obtain ⟨u, hu, h⟩ := h
    obtain ⟨m, hm, hw, -, -⟩ := pushAll_of_room _ _ (pushAll_eq_next_room hu)
    rw [hm] at hu
    cases hu
    cases h
    simp [clearPending, SameHidden] at hw ⊢
    refine ⟨?_, hw⟩
    have := (m.read (248 + i.val)).isLt
    omega

/-! ### The timer check and the cycle boundary -/

/-- The timer check changes R6 and `last_tick` only. -/
theorem timerCheck_keeps (d : Bool) (s : State) :
    (timerCheck d s).fl = s.fl ∧ (timerCheck d s).servicing = s.servicing ∧ (timerCheck d s).running = s.running ∧
      (timerCheck d s).out = s.out ∧ (timerCheck d s).fault = s.fault ∧ (timerCheck d s).tick = s.tick ∧
      (timerCheck d s).schedule = s.schedule ∧ (s.lastTick ≤ s.tick → (timerCheck d s).lastTick ≤ s.tick) := by
  rcases timerCheck_cases d s with h | h | h <;> rw [h] <;> simp [setPending]

/-- The timer check does not change what is fetched. -/
theorem fetchDecode_timerCheck (d : Bool) (s : State) : fetchDecode (timerCheck d s) = fetchDecode s := by
  simp [fetchDecode, State.byteAt?]

/-- The steps of one boundary are applied one after another. -/
theorem envSteps_eq_foldl (es : List EnvStep) (s : State) : envSteps es s = es.foldl (fun u e => envStep e u) s := by
  induction es generalizing s with
  | nil => rfl
  | cons e es ih => exact ih (envStep e s)

/-- A step of the environment leaves the schedule alone. -/
theorem envStep_schedule (e : EnvStep) (s : State) : (envStep e s).schedule = s.schedule := by
  cases e with
  | advanceTick k => rfl
  | keyEvent c =>
    show (keyEvent c s).schedule = s.schedule
    rcases keyEvent_cases c s with h | h <;> simp [h, setPending]
  | stopRequest => rfl

/-- The environment changes R6, memory (which stays canonical), the tick input (upward) and `running` (to false). -/
theorem envSteps_keeps (es : List EnvStep) (s : State) :
    (envSteps es s).pc = s.pc ∧ (envSteps es s).fl = s.fl ∧ (envSteps es s).servicing = s.servicing ∧
      (envSteps es s).out = s.out ∧ (envSteps es s).fault = s.fault ∧ (envSteps es s).lastTick = s.lastTick ∧
      s.tick ≤ (envSteps es s).tick ∧ (s.mem.wf → (envSteps es s).mem.wf) ∧
      ((envSteps es s).running = true → s.running = true) := by
  induction es generalizing s with
  | nil => simp [envSteps]
  | cons e es ih =>
    obtain ⟨h1, h2, h3, h4, h5, h6, h7, h8, h9⟩ := ih (envStep e s)
    simp only [envSteps]
    rw [h1, h2, h3, h4, h5, h6]
    cases e with
    | advanceTick k => simp [envStep] at h7 h8 h9 ⊢; exact ⟨by omega, h8, h9⟩
    | keyEvent c =>
      simp only [envStep] at h7 h8 h9 ⊢
      have := fun h => h8 (keyEvent_keeps_wf h)
      rcases keyEvent_cases c s with e | e <;> rw [e] at h7 h9 ⊢
      · simp at h7 ⊢; rw [e] at this; exact ⟨h7, this, h9⟩
      · rw [e] at this; simp [setPending] at h7 h9 this ⊢; exact ⟨h7, this, h9⟩
    | stopRequest => simp [envStep, stopRequest] at h7 h8 h9 ⊢; exact ⟨h7, h8, fun h => by simp [h9] at h⟩

/-- The same for a cycle boundary. -/
theorem boundary_keeps (s : State) :
    (boundary s).pc = s.pc ∧ (boundary s).fl = s.fl ∧ (boundary s).servicing = s.servicing ∧
      (boundary s).out = s.out ∧ (boundary s).fault = s.fault ∧ (boundary s).lastTick = s.lastTick ∧
      s.tick ≤ (boundary s).tick ∧ (s.mem.wf → (boundary s).mem.wf) ∧
      ((boundary s).running = true → s.running = true) := by
  unfold boundary
  split
  · split
    · simp
    · have := envSteps_keeps ‹_› (s.setSchedule ‹_›)
      simpa using this
  · simp

/-! ### Cycles and steps -/

/-- The cycle of a running machine, then the boundary. -/
theorem step_of_active {s : State} (h : s.Active) :
    step s = andThen (cycle s) fun t => .next (boundary t) := by
  simp [step, runLoopTurn, h.1, h.2]

/-- A step that answers a next state found the run over without a fault, or made one cycle. -/
theorem step_cases {s t : State} (h : step s = .next t) :
    s.fault = none ∧ ((s.running = false ∧ t = s) ∨ (s.Active ∧ ∃ u, cycle s = .next u ∧ t = boundary u)) := by
  unfold step runLoopTurn at h
  split at h
  · simp at h
  · rename_i hf
    split at h
    · rename_i hr
      obtain ⟨u, hu, h⟩ := andThen_eq_next.mp h
      exact ⟨hf, .inr ⟨⟨hf, hr⟩, u, hu, by simpa using h.symm⟩⟩
    · rename_i hr
      exact ⟨hf, .inl ⟨by simpa using hr, by simpa using h.symm⟩⟩

/-- A cycle that completes delivered the chosen line, or executed the instruction at `pc`, after the timer check. -/
theorem cycle_cases {s u : State} (h : cycle s = .next u) :
    (∃ i, chosenLine s = some i ∧ deliver i (timerCheck Config.tickDeferred s) = .next u) ∨
      (chosenLine s = none ∧
        ∃ i, fetchDecode s = .ok i ∧ exec i (timerCheck Config.tickDeferred s) = .next u) := by
  unfold cycle at h
  simp only at h
  split at h
  · exact .inl ⟨_, ‹_›, h⟩
  · unfold fetchExecute at h
    rw [fetchDecode_timerCheck] at h
    split at h
    · exact .inr ⟨‹_›, _, ‹_›, h⟩
    · simp at h

/-- An instruction is fetched only where `pc` is an address. -/
theorem pc_lt_of_fetchDecode {s : State} {i : Instr} (h : fetchDecode s = .ok i) : s.pc < 256 := by
  unfold fetchDecode decodeFrom State.byteAt? at h
  by_contra hc
  simp [hc] at h

end Sys2Proof.Machine
end

