-- ==== Sys2Proof/Tests/Slice0.lean ====
section
/-! SUPPORT. Tests: the smoke tests of WellFormed, words written out from R50 and R56, single steps with the results of
spec/95_test_vectors.md, and for every statement with hypotheses a state and operands that meet them. -/

namespace Sys2Proof.Tests

open Sys2Proof Sys2Proof.Machine

/-- The reset state with some registers set and `bytes` at `pc`. -/
def start (pc : Nat) (rs : List (Reg × Byte)) (bytes : List Byte) : State :=
  let s := rs.foldl (fun t x => t.setReg x.1 x.2) State.reset
  { s with pc := pc, mem := s.mem.writeBytes pc bytes }

/-- The state with more bytes in memory. -/
def withBytes (addr : Nat) (bytes : List Byte) (s : State) : State := { s with mem := s.mem.writeBytes addr bytes }

/-- The next state has the property. -/
def after (r : Result) (p : State → Bool) : Bool :=
  match r with
  | .next t => p t
  | _ => false

/-- The run ends with this error and the wreck has the property. -/
def raised (r : Result) (e : FatalError) (p : State → Bool) : Bool :=
  match r with
  | .fault (.raised f w) => f == e && p w
  | _ => false

/-! ### WellFormed: each register operand is checked (R53, R54) -/

theorem test_wellFormed_refuses_operand_a : ¬ (Instr.add 8 0).WellFormed := by decide
theorem test_wellFormed_refuses_operand_b : ¬ (Instr.add 0 8).WellFormed := by decide
theorem test_wellFormed_refuses_single_operand : ¬ (Instr.prn 255).WellFormed := by decide
theorem test_wellFormed_refuses_ldi_register : ¬ (Instr.ldi 8 0).WellFormed := by decide
theorem test_wellFormed_accepts_any_immediate : (Instr.ldi 7 255).WellFormed := by decide
theorem test_wellFormed_accepts_no_operand : Instr.iret.WellFormed := by decide

/-! ### Decoding: one word for every constructor, written out from the bits of R56 and the formats of R50 -/

theorem test_decode_no_operand :
    decode [0b00000000] = .ok .nop ∧ decode [0b00000001] = .ok .hlt ∧ decode [0b00010001] = .ok .ret ∧
    decode [0b00010011] = .ok .iret := ⟨rfl, rfl, rfl, rfl⟩

theorem test_decode_stack_and_output :
    decode [0b01000101, 1] = .ok (.push 1) ∧ decode [0b01000110, 2] = .ok (.pop 2) ∧
    decode [0b01000111, 3] = .ok (.prn 3) ∧ decode [0b01001000, 4] = .ok (.pra 4) := ⟨rfl, rfl, rfl, rfl⟩

theorem test_decode_control :
    decode [0b01010000, 1] = .ok (.call 1) ∧ decode [0b01010010, 2] = .ok (.int 2) ∧
    decode [0b01010100, 3] = .ok (.jmp 3) ∧ decode [0b01010101, 4] = .ok (.jeq 4) ∧
    decode [0b01010110, 5] = .ok (.jne 5) ∧ decode [0b01010111, 6] = .ok (.jgt 6) ∧
    decode [0b01011000, 7] = .ok (.jlt 7) ∧ decode [0b01011001, 0] = .ok (.jle 0) ∧
    decode [0b01011010, 1] = .ok (.jge 1) := ⟨rfl, rfl, rfl, rfl, rfl, rfl, rfl, rfl, rfl⟩

theorem test_decode_one_register_alu :
    decode [0b01100101, 1] = .ok (.inc 1) ∧ decode [0b01100110, 2] = .ok (.dec 2) ∧
    decode [0b01101001, 3] = .ok (.not 3) := ⟨rfl, rfl, rfl⟩

theorem test_decode_data :
    decode [0b10000010, 3, 0xFF] = .ok (.ldi 3 0xFF) ∧ decode [0b10000011, 3, 2] = .ok (.ld 3 2) ∧
    decode [0b10000100, 2, 1] = .ok (.st 2 1) := ⟨rfl, rfl, rfl⟩

theorem test_decode_arithmetic :
    decode [0b10100000, 1, 2] = .ok (.add 1 2) ∧ decode [0b10100001, 1, 2] = .ok (.sub 1 2) ∧
    decode [0b10100010, 1, 2] = .ok (.mul 1 2) ∧ decode [0b10100011, 1, 2] = .ok (.div 1 2) ∧
    decode [0b10100100, 1, 2] = .ok (.mod 1 2) ∧ decode [0b10100111, 1, 2] = .ok (.cmp 1 2) :=
  ⟨rfl, rfl, rfl, rfl, rfl, rfl⟩

theorem test_decode_logic_and_shift :
    decode [0b10101000, 1, 2] = .ok (.and 1 2) ∧ decode [0b10101010, 1, 2] = .ok (.or 1 2) ∧
    decode [0b10101011, 1, 2] = .ok (.xor 1 2) ∧ decode [0b10101100, 1, 2] = .ok (.shl 1 2) ∧
    decode [0b10101101, 1, 2] = .ok (.shr 1 2) := ⟨rfl, rfl, rfl, rfl, rfl⟩

theorem test_decode_rejects :
    decode [0xA9, 0, 0] = .error (.unrecognizedOpcode 0xA9) ∧ decode [] = .error (.missingByte 0) ∧
    decode [0x45] = .error (.missingByte 1) ∧ decode [0x82, 0] = .error (.missingByte 2) := ⟨rfl, rfl, rfl, rfl⟩

/-- No two rows of the opcode map have the same opcode byte, and there are 34 rows (R2, R56). -/
theorem test_opcodes_differ :
    (opcodeMap.map OpcodeRow.opcode).Nodup ∧ opcodeMap.length = 34 := by decide

theorem test_decodeTableWord :
    decodeTableWord 24 0x0201A0 = some (.add 1 2) ∧ decodeTableWord 16 0x0145 = some (.push 1) ∧
    decodeTableWord 8 0xA0 = some (.add 0 0) ∧ decodeTableWord 8 0xFF = none := ⟨rfl, rfl, rfl, rfl⟩

/-- The very next step after reset runs the word, and only memory was changed to place it. -/
theorem test_withFetchWord :
    after (step (State.reset.withFetchWord 24 0x080082)) (fun t => t.reg 0 == 8 && t.pc == 3) = true ∧
    State.reset.withFetchWord 24 0x080082 = { State.reset with mem := [(0, 0x82), (2, 8)] } := by decide

/-! ### Memory, reset and loading -/

theorem test_memory_canonical :
    State.reset.mem.wf ∧ (Memory.write [] 5 0) = [] ∧ Memory.write [(3, 1), (7, 2)] 5 9 = [(3, 1), (5, 9), (7, 2)] ∧
    Memory.write [(3, 1), (7, 2)] 7 0 = [(3, 1)] ∧ ¬ Memory.wf [(3, 1), (3, 2)] ∧ ¬ Memory.wf [(3, 0)] ∧
    ¬ Memory.wf [(256, 1)] := by decide

/-- V-R1. -/
theorem test_powerOn_V_R1 :
    after (powerOn 0 [] [0x82, 0x00, 0x08, 0x01]) (fun t => t == { State.reset with mem := [(0, 0x82), (2, 8), (3, 1)] })
      = true := by decide

/-- The example of R63: binary literals with a comment, a comment-only line and a blank line. -/
theorem test_parseImage :
    parseImage ["10000010 # LDI R0,8".toList, "00000000".toList, "# a comment".toList, "".toList, "00001000".toList] =
      some [0x82, 0x00, 0x08] ∧
    parseImage ["1000001".toList] = none ∧ parseImage ["10000012".toList] = none := by decide

/-! ### Single steps: at most two for each instruction (spec/95_test_vectors.md) -/

/-- V-A3: ADD with the same register twice. -/
theorem test_add_V_A3 : after (step (start 0 [(2, 0x90)] [0xA0, 2, 2])) (fun t => t.reg 2 == 0x20 && t.pc == 3) = true := by
  decide

/-- V-A6. -/
theorem test_sub_V_A6 : after (step (start 0 [(0, 5), (1, 10)] [0xA1, 0, 1])) (fun t => t.reg 0 == 0xFB) = true := by decide

/-- V-A9. -/
theorem test_mul_V_A9 : after (step (start 0 [(0, 0xFF), (1, 0xFF)] [0xA2, 0, 1])) (fun t => t.reg 0 == 1) = true := by
  decide

/-- V-A12. -/
theorem test_div_V_A12 : after (step (start 0 [(0, 0xFF), (1, 2)] [0xA3, 0, 1])) (fun t => t.reg 0 == 0x7F) = true := by
  decide

/-- V-A14. -/
theorem test_div_V_A14 :
    raised (step (start 0 [(0, 5)] [0xA3, 0, 1])) .divisionByZero (fun w => w.reg 0 == 5 && w.pc == 0) = true := by decide

/-- V-A18. -/
theorem test_mod_V_A18 : after (step (start 0 [(0, 0xFF), (1, 0x10)] [0xA4, 0, 1])) (fun t => t.reg 0 == 0x0F) = true := by
  decide

/-- V-A21. -/
theorem test_and_V_A21 : after (step (start 0 [(0, 0xCC), (1, 0xAA)] [0xA8, 0, 1])) (fun t => t.reg 0 == 0x88) = true := by
  decide

/-- V-A22. -/
theorem test_or_V_A22 : after (step (start 0 [(0, 0xCC), (1, 0xAA)] [0xAA, 0, 1])) (fun t => t.reg 0 == 0xEE) = true := by
  decide

/-- V-A23. -/
theorem test_xor_V_A23 : after (step (start 0 [(0, 0xCC), (1, 0xAA)] [0xAB, 0, 1])) (fun t => t.reg 0 == 0x66) = true := by
  decide

/-- V-A29: SHL with the same register twice. -/
theorem test_shl_V_A29 : after (step (start 0 [(1, 3)] [0xAC, 1, 1])) (fun t => t.reg 1 == 0x18) = true := by decide

/-- V-A28: a count of 255. -/
theorem test_shl_V_A28 : after (step (start 0 [(0, 0xFF), (1, 0xFF)] [0xAC, 0, 1])) (fun t => t.reg 0 == 0) = true := by
  decide

/-- V-A34: SHR is logical. -/
theorem test_shr_V_A34 : after (step (start 0 [(0, 0xFF), (1, 1)] [0xAD, 0, 1])) (fun t => t.reg 0 == 0x7F) = true := by
  decide

/-- V-A36: SP moves above 0xF4. -/
theorem test_inc_V_A36 : after (step (start 0 [] [0x65, 7])) (fun t => t.reg 7 == 0xF5 && t.pc == 2) = true := by decide

/-- V-A37. -/
theorem test_dec_V_A37 : after (step (start 0 [] [0x66, 1])) (fun t => t.reg 1 == 0xFF && t.pc == 2) = true := by decide

/-- V-A39. -/
theorem test_not_V_A39 : after (step (start 0 [(0, 0x0F)] [0x69, 0])) (fun t => t.reg 0 == 0xF0 && t.pc == 2) = true := by
  decide

/-- V-A45: the comparison is unsigned. -/
theorem test_cmp_V_A45 : after (step (start 0 [(1, 0x80), (2, 0x7F)] [0xA7, 1, 2])) (fun t => t.fl == 2) = true := by decide

/-- V-A47: the whole byte FL is written. -/
theorem test_cmp_V_A47 :
    after (step ((start 0 [(1, 1), (2, 2)] [0xA7, 1, 2]).setFl 255)) (fun t => t.fl == 4 && t.pc == 3) = true := by decide

/-- V-D6: an instruction that ends at 255. -/
theorem test_ldi_V_D6 :
    after (step (start 0xFD [] [0x82, 0, 9])) (fun t => t.reg 0 == 9 && t.pc == 256) = true := by decide

/-- V-D7: operand b would be at 256. -/
theorem test_ldi_V_D7 :
    raised (step (start 0xFE [] [0x82, 0])) (.outOfBoundsAccess 256) (fun w => w.pc == 0xFE) = true := by decide

/-- V-D8. -/
theorem test_ld_V_D8 :
    after (step ((start 0 [(2, 0x80)] [0x83, 3, 2]).setMem 0x80 0x0F)) (fun t => t.reg 3 == 0x0F && t.pc == 3) = true := by
  decide

/-- V-D14. -/
theorem test_st_V_D14 :
    after (step (start 0 [(0, 0xF8), (1, 0x14)] [0x84, 0, 1])) (fun t => t.mem.read 0xF8 == 0x14 && t.pc == 3) = true := by
  decide

/-- V-D21: PUSH R7 stores the old SP. -/
theorem test_push_V_D21 :
    after (step (start 0 [] [0x45, 7])) (fun t => t.reg 7 == 0xF3 && t.mem.read 0xF3 == 0xF4 && t.pc == 2) = true := by
  decide

/-- V-D20. -/
theorem test_push_V_D20 :
    raised (step (start 0x10 [(0, 0xAB), (7, 0)] [0x45, 0])) .stackOverflow (fun w => w.pc == 0x10 && w.reg 7 == 0) = true := by
  decide

/-- V-D26: POP R7 leaves the popped byte in SP. -/
theorem test_pop_V_D26 :
    after (step ((start 0 [(7, 0xF0)] [0x46, 7]).setMem 0xF0 0x20)) (fun t => t.reg 7 == 0x20 && t.pc == 2) = true := by
  decide

/-- V-D25. -/
theorem test_pop_V_D25 :
    raised (step (start 0 [(7, 0xF5)] [0x46, 0])) .stackUnderflow (fun w => w.reg 7 == 0xF5) = true := by decide

/-- V-C2. -/
theorem test_jmp_V_C2 : after (step (start 0 [(0, 0xFF)] [0x54, 0])) (fun t => t.pc == 0xFF) = true := by decide

/-- V-C4, V-C28. -/
theorem test_jeq_V_C4_C28 :
    after (step ((start 8 [(3, 0x40)] [0x55, 3]).setFl 1)) (fun t => t.pc == 0x40) = true ∧
    after (step ((start 8 [(3, 0x40)] [0x55, 3]).setFl 3)) (fun t => t.pc == 0x0A) = true := by decide

/-- V-C5, V-C23. -/
theorem test_jne_V_C5_C23 :
    after (step ((start 8 [(3, 0x40)] [0x56, 3]).setFl 1)) (fun t => t.pc == 0x0A) = true ∧
    after (step (start 8 [(3, 0x40)] [0x56, 3])) (fun t => t.pc == 0x40) = true := by decide

/-- V-C12, V-C18. -/
theorem test_jgt_V_C12_C18 :
    after (step ((start 8 [(3, 0x40)] [0x57, 3]).setFl 2)) (fun t => t.pc == 0x40) = true ∧
    after (step ((start 8 [(3, 0x40)] [0x57, 3]).setFl 4)) (fun t => t.pc == 0x0A) = true := by decide

/-- V-C7, V-C19. -/
theorem test_jge_V_C7_C19 :
    after (step ((start 8 [(3, 0x40)] [0x5A, 3]).setFl 1)) (fun t => t.pc == 0x40) = true ∧
    after (step ((start 8 [(3, 0x40)] [0x5A, 3]).setFl 4)) (fun t => t.pc == 0x0A) = true := by decide

/-- V-C20, V-C8. -/
theorem test_jlt_V_C20_C8 :
    after (step ((start 8 [(3, 0x40)] [0x58, 3]).setFl 4)) (fun t => t.pc == 0x40) = true ∧
    after (step ((start 8 [(3, 0x40)] [0x58, 3]).setFl 1)) (fun t => t.pc == 0x0A) = true := by decide

/-- V-C9, V-C15. -/
theorem test_jle_V_C9_C15 :
    after (step ((start 8 [(3, 0x40)] [0x59, 3]).setFl 1)) (fun t => t.pc == 0x40) = true ∧
    after (step ((start 8 [(3, 0x40)] [0x59, 3]).setFl 2)) (fun t => t.pc == 0x0A) = true := by decide

/-- V-C40: the target is read after the push. -/
theorem test_call_V_C40 :
    after (step (start 6 [] [0x50, 7])) (fun t => t.reg 7 == 0xF3 && t.pc == 0xF3 && t.mem.read 0xF3 == 8) = true := by
  decide

/-- V-C37. -/
theorem test_call_V_C37 :
    raised (step (start 0xFE [(1, 0x0C)] [0x50, 1])) (.undefined .pcNotByte 256) (fun w => w.pc == 0xFE) = true := by decide

/-- V-C42. -/
theorem test_ret_V_C42 :
    after (step ((start 0x16 [(7, 0xF3)] [0x11]).setMem 0xF3 8)) (fun t => t.reg 7 == 0xF4 && t.pc == 8) = true := by decide

/-- V-S3: line 0 by software, the other bits kept. -/
theorem test_int_V_S3 :
    after (step (start 0x17 [(4, 0), (6, 0x82)] [0x52, 4])) (fun t => t.reg 6 == 0x83 && t.pc == 0x19) = true := by decide

/-- V-S5. -/
theorem test_int_V_S5 :
    raised (step (start 0x17 [(4, 8)] [0x52, 4])) (.undefined .interruptLine 8) (fun w => w.reg 6 == 0) = true := by decide

/-- V-S10: executed in Normal, FL takes the byte 7. -/
theorem test_iret_V_S10 :
    after (step (withBytes 0xEB [0x11, 0x22, 0x33, 0x44, 0x55, 0x66, 0x77, 0x07, 0x99] (start 0x16 [(7, 0xEB)] [0x13])))
      (fun t => t.regs == #v[0x77, 0x66, 0x55, 0x44, 0x33, 0x22, 0x11, 0xF4] && t.fl == 7 && t.pc == 0x99
        && !t.servicing) = true := by decide

/-- V-S12: the fourth pop fails, three registers are already written. -/
theorem test_iret_V_S12 :
    raised (step (withBytes 0xF1 [0xAA, 0xBB, 0xCC] ((start 0x16 [(7, 0xF1)] [0x13]).setServicing true))) .stackUnderflow
      (fun w => w.regs == #v[0, 0, 0, 0, 0xCC, 0xBB, 0xAA, 0xF4] && w.pc == 0x16 && w.servicing) = true := by decide

/-- V-S14. -/
theorem test_hlt_V_S14 : after (step (start 0xFF [] [0x01])) (fun t => t.pc == 256 && !t.running) = true := by decide

/-- V-S15. -/
theorem test_nop_V_S15 : after (step (start 0x1E [] [0x00])) (fun t => t == { State.reset with pc := 0x1F }) = true := by
  decide

/-- V-S19. -/
theorem test_prn_V_S19 : after (step (start 0 [(0, 0xFF)] [0x47, 0])) (fun t => t.out == [.num 255] && t.pc == 2) = true := by
  decide

/-- V-S21. -/
theorem test_pra_V_S21 : after (step (start 0 [(0, 0x41)] [0x48, 0])) (fun t => t.out == [.chr 65] && t.pc == 2) = true := by
  decide

/-- V-S39 and V-A50: an illegal opcode, and the register check before the divisor test. -/
theorem test_illegal_V_S39_A50 :
    raised (step (start 5 [] [0xA9])) (.unrecognizedOpcode 0xA9 5) (fun w => w.pc == 5) = true ∧
    raised (step (start 0 [(0, 1)] [0xA3, 0, 8])) (.undefined .registerIndex 8) (fun w => w.pc == 0) = true := by decide

/-- V-I9: the line is chosen before the timer check, whose bit is then saved in the frame. -/
theorem test_deliver_V_I9 :
    after (step { (start 0x20 [(5, 3), (6, 2)] [0]).setMem 0xF9 0x90 with tick := 1 })
      (fun t => t.reg 6 == 1 && t.reg 7 == 0xEB && t.pc == 0x90 && t.servicing && t.lastTick == 1
        && t.mem == [(0xEB, 1), (0xEC, 3), (0xF3, 0x20), (0xF9, 0x90)]) = true := by decide

/-- V-T3: a tick during Servicing is consumed and dropped. -/
theorem test_timer_V_T3 :
    after (step { start 0x20 [(5, 1)] [0] with servicing := true, tick := 1 })
      (fun t => t.reg 6 == 0 && t.lastTick == 1 && t.pc == 0x21) = true := by decide

/-- V-K3 and V-K4: the second key is lost while the first is pending; Servicing is not consulted. -/
theorem test_key_V_K3_K4 :
    keyEvent 0x42 ((start 0 [(5, 2), (6, 2)] []).setMem 0xF4 0x41) = (start 0 [(5, 2), (6, 2)] []).setMem 0xF4 0x41 ∧
    (keyEvent 0x43 { start 0 [(5, 2)] [] with servicing := true }).mem = [(0xF4, 0x43)] := by decide

/-- P7, schedule A: at one boundary the first key is accepted and the second dropped. -/
theorem test_boundary_P7 :
    after (step ((start 0x0F [(2, 0x0F), (5, 2)] [0x54, 2]).setSchedule [[.keyEvent 0x41, .keyEvent 0x42], [.stopRequest]]))
      (fun t => t.reg 6 == 2 && t.mem.read 0xF4 == 0x41 && t.pc == 0x0F && t.schedule == [[.stopRequest]]) = true := by
  decide

/-! ### Witnesses: for each statement with hypotheses, a state and operands that meet them -/

theorem test_hyp_DecodeAgreesWithEncode : decode [0xA0, 1, 2, 9] = .ok (.add 1 2) := rfl

theorem test_hyp_OpcodesOutsideTheTableRaise :
    (∃ s : State, s.pc < 256 ∧ s.pc = 255 ∧ s.mem.read s.pc = 0xFF ∧ lookupOpcode opcodeMap 0xFF = none) ∧
    ∃ s : State, s.pc < 256 ∧ s.mem.read s.pc = 0 := ⟨⟨start 255 [] [0xFF], by decide⟩, State.reset, by decide⟩

theorem test_hyp_FetchRaisesOutOfBounds_pc : ∃ s : State, 256 ≤ s.pc ∧ s.pc = 256 := ⟨start 256 [] [], by decide⟩

theorem test_hyp_FetchRaisesOutOfBounds_operand :
    ∃ (s : State) (row : OpcodeRow), s.pc < 256 ∧ lookupOpcode opcodeMap (s.mem.read s.pc) = some row ∧
      256 ≤ s.pc + row.format.count := ⟨start 255 [] [0x45], _, by decide, rfl, by decide⟩

theorem test_hyp_FetchRaisesOutOfBounds_fits :
    ∃ (s : State) (row : OpcodeRow), s.pc < 256 ∧ lookupOpcode opcodeMap (s.mem.read s.pc) = some row ∧
      s.pc + row.format.count < 256 := ⟨start 253 [] [0x82, 0, 9], _, by decide, rfl, by decide⟩

theorem test_hyp_StepRunsTheDecodedInstruction :
    ∃ (s t : State) (i : Instr), s.Active ∧ chosenLine s = none ∧ fetchDecode s = .ok i ∧ s.tick = s.lastTick ∧
      t.schedule = [] :=
  ⟨start 0x17 [(4, 3)] [0x52, 4], State.reset, .int 4, by decide, by decide, rfl, rfl, rfl⟩

theorem test_hyp_StepRunsTheEncodedInstruction :
    ∃ (s : State) (i : Instr), s.Active ∧ chosenLine s = none ∧ s.tick = s.lastTick ∧ s.schedule = [] ∧
      ∀ (k : Nat) (h : k < (encode i).length), s.byteAt? (s.pc + k) = some (encode i)[k] :=
  ⟨start 253 [] [0x82, 7, 9], .ldi 7 9, by decide, by decide, rfl, rfl, by decide⟩

theorem test_hyp_StepDeliversTheChosenLine : ∃ (s : State) (i : Line), s.Active ∧ chosenLine s = some i :=
  ⟨start 0 [(5, 0x80), (6, 0x80)] [0xFF], 7, by decide, by decide⟩

theorem test_hyp_EndedRunsMakeNoFurtherCycle :
    (∃ s : State, s.Halted) ∧ ∃ (s : State) (e : FatalError), s.fault = some e :=
  ⟨⟨State.reset.stop, by decide⟩, State.reset.setFault .stackOverflow, _, rfl⟩

theorem test_hyp_PowerOnLoadsTheImage :
    (∃ image : List Byte, image.length = 256 ∧ image.length ≤ 256) ∧ ∃ image : List Byte, 256 < image.length :=
  ⟨⟨List.replicate 256 1, by rw [List.length_replicate], by rw [List.length_replicate]⟩,
    List.replicate 257 1, by rw [List.length_replicate]; decide⟩

theorem test_hyp_StepKeepsTheInvariant : ∃ s t : State, s.Inv ∧ step s = .next t :=
  ⟨start 253 [] [0x82, 0, 9], _, by decide, rfl⟩

theorem test_hyp_CanonicalMemoryIsUnique :
    ∃ m n : Memory, m.wf ∧ n.wf ∧ ∀ addr, m.read addr = n.read addr :=
  ⟨[(0, 1), (255, 2)], [(0, 1), (255, 2)], by decide, by decide, fun _ => rfl⟩

theorem test_hyp_OutputOnlyGrows : ∃ s t : State, step s = .next t ∧ t.out ≠ s.out :=
  ⟨start 0 [(0, 7)] [0x47, 0], _, rfl, by decide⟩

theorem test_hyp_RaiseEndsTheRun :
    ∃ (s w : State) (e : FatalError), s.fault = none ∧ step s = .fault (.raised e w) :=
  ⟨start 0 [] [0x46, 0], _, _, rfl, rfl⟩

theorem test_hyp_FlagsChangeOnlyByCmpAndIret : ∃ s t : State, s.Active ∧ step s = .next t ∧ t.fl ≠ s.fl :=
  ⟨start 0 [] [0xA7, 0, 1], _, by decide, rfl, by decide⟩

theorem test_hyp_MemoryChangesOnlyByStoresAndPushes :
    ∃ s t : State, s.Active ∧ s.schedule = [] ∧ step s = .next t ∧ ¬ SameMemory s t :=
  ⟨start 0 [(0, 0x80), (1, 5)] [0x84, 0, 1], _, by decide, rfl, rfl, fun h => absurd (h 0x80) (by decide)⟩

theorem test_hyp_Servicing_set :
    ∃ s t : State, s.Active ∧ step s = .next t ∧ s.servicing = false ∧ t.servicing = true :=
  ⟨start 0 [(5, 1), (6, 1)] [], _, by decide, rfl, rfl, rfl⟩

theorem test_hyp_Servicing_cleared :
    ∃ s t : State, s.Active ∧ step s = .next t ∧ s.servicing = true ∧ t.servicing = false :=
  ⟨(start 0 [(7, 0xEB)] [0x13]).setServicing true, _, by decide, rfl, rfl, rfl⟩

theorem test_hyp_Servicing_instructions :
    (∃ s t : State, exec (.int 0) s = .next t) ∧ (∃ s t : State, exec .iret s = .next t) ∧
    ∃ s t : State, deliver 7 s = .next t :=
  ⟨⟨State.reset, _, rfl⟩, ⟨State.reset.setReg 7 0, _, rfl⟩, State.reset, _, rfl⟩

theorem test_hyp_RunningIsClearedForGood :
    (∃ s t : State, exec .hlt s = .next t) ∧ (∃ s t : State, step s = .next t ∧ t.running = true) ∧
    ∃ s t : State, step s = .next t ∧ s.running = false :=
  ⟨⟨State.reset, _, rfl⟩, ⟨State.reset, _, rfl, rfl⟩, State.reset.stop, _, rfl, rfl⟩

theorem test_hyp_OperandsThatNameNoRegisterRaise :
    (Instr.div 0 8).regOperands.find? (fun x => decide (8 ≤ x.toNat)) = some 8 ∧
    (Instr.st 255 9).regOperands.find? (fun x => decide (8 ≤ x.toNat)) = some 255 := by decide

theorem test_hyp_PcAdvancesPastTheInstruction :
    (∃ s t : State, exec (.ldi 7 1) s = .next t ∧ (Instr.ldi 7 1).category ≠ .controlFlow) ∧
    ∃ s t : State, exec (.int 0) s = .next t := ⟨⟨State.reset, _, rfl, by decide⟩, State.reset, _, rfl⟩

theorem test_hyp_MemoryAccesses :
    State.reset.mem.wf ∧ (∃ addr : Nat, addr = 255 ∧ addr < 256) ∧ ∃ addr : Nat, addr = 256 ∧ 256 ≤ addr := by
  refine ⟨by decide, ⟨255, rfl, by decide⟩, 256, rfl, by decide⟩

theorem test_hyp_PushPrimitive :
    (∃ s : State, s.mem.wf ∧ s.reg 7 = 0) ∧ ∃ s : State, s.mem.wf ∧ s.reg 7 = 1 ∧ s.reg 7 ≠ 0 :=
  ⟨⟨State.reset.setReg 7 0, by decide⟩, State.reset.setReg 7 1, by decide⟩

theorem test_hyp_PopPrimitive :
    (∃ s : State, (s.reg 7).toNat = 244 ∧ 244 ≤ (s.reg 7).toNat) ∧
    ∃ s : State, (s.reg 7).toNat = 243 ∧ (s.reg 7).toNat < 244 :=
  ⟨⟨State.reset, by decide⟩, State.reset.setReg 7 243, by decide⟩

theorem test_hyp_PushedBytesPopInReverse :
    (∃ (vs : List Byte) (s : State), s.mem.wf ∧ vs.length ≤ (s.reg 7).toNat ∧ (s.reg 7).toNat ≤ 244 ∧ vs = [1, 2]) ∧
    ∃ (vs : List Byte) (s : State), s.reg 7 = 0xF4 ∧ vs.length = 244 :=
  ⟨⟨[1, 2], State.reset.setReg 7 2, by decide⟩, List.replicate 244 1, State.reset, by decide, by rw [List.length_replicate]⟩

theorem test_hyp_AluLaws :
    (∃ (s : State) (rb : Reg), (s.reg rb).toNat = 1 ∧ 1 ≤ (s.reg rb).toNat) ∧
    (∃ (s : State) (rb : Reg), (s.reg rb).toNat = 0) ∧
    ∃ (s : State) (rb : Reg), (s.reg rb).toNat = 8 ∧ 8 ≤ (s.reg rb).toNat :=
  ⟨⟨State.reset.setReg 1 1, 1, by decide⟩, ⟨State.reset, 1, by decide⟩, State.reset.setReg 1 8, 1, by decide⟩

theorem test_hyp_DivisionByZeroExactlyOnZeroDivisor :
    (∃ (a b : Byte) (s : State), NamesReg a ∧ ∃ rb, b = regByte rb ∧ s.reg rb = 0) ∧
    (∃ s : State, Raises (exec (.div 0 1) s) .divisionByZero) ∧
    ∃ s : State, Raises (exec (.mod 0 1) s) .divisionByZero :=
  ⟨⟨0, 1, State.reset, by decide, 1, by decide, by decide⟩, ⟨State.reset, _, rfl⟩, State.reset, _, rfl⟩

theorem test_hyp_FlagsAndDivisionLaws :
    (∃ s t : State, exec (.cmp 0 1) s = .next t) ∧
    (∃ (i : Instr) (s t : State), i.category = .alu ∧ (∀ a b, i ≠ .cmp a b) ∧ exec i s = .next t) ∧
    ∃ (s t u : State), exec (.div (regByte 0) (regByte 1)) s = .next t ∧
      exec (.mod (regByte 0) (regByte 1)) s = .next u :=
  ⟨⟨State.reset, _, rfl⟩, ⟨.inc 0, State.reset, _, rfl, by simp, rfl⟩, State.reset.setReg 1 1, _, _, rfl, rfl⟩

/-- For the last clause: the byte stored at 255 is an IRET, fetched there afterwards. -/
theorem test_hyp_StoreWritesOneByte :
    ∃ (s t : State) (i : Instr), s.mem.wf ∧ exec (.st (regByte 0) (regByte 1)) s = .next { t with pc := s.pc + 3 } ∧
      t.pc = (s.reg 0).toNat ∧ t.pc = 255 ∧ encode i = [s.reg 1] :=
  ⟨start 0 [(0, 0xFF), (1, 0x13)] [], { start 255 [(0, 0xFF), (1, 0x13)] [0x13] with pc := 255 }, .iret, by decide, rfl,
    rfl, rfl, rfl⟩

theorem test_hyp_PushInstruction :
    (∃ s : State, s.mem.wf ∧ s.reg 7 = 1 ∧ s.reg 7 ≠ 0) ∧ ∃ s : State, s.mem.wf ∧ s.reg 7 = 0 :=
  ⟨⟨State.reset.setReg 7 1, by decide⟩, State.reset.setReg 7 0, by decide⟩

theorem test_hyp_PopInstruction :
    (∃ s : State, (s.reg 7).toNat = 243 ∧ (s.reg 7).toNat < 244) ∧ ∃ s : State, 244 ≤ (s.reg 7).toNat :=
  ⟨⟨State.reset.setReg 7 243, by decide⟩, State.reset, by decide⟩

theorem test_hyp_CallPushesTheReturnAddress :
    (∃ s : State, s.mem.wf ∧ s.pc + 2 = 255 ∧ s.pc + 2 < 256 ∧ s.reg 7 ≠ 0) ∧
    (∃ s : State, s.mem.wf ∧ s.pc + 2 = 256 ∧ 256 ≤ s.pc + 2) ∧
    ∃ s : State, s.mem.wf ∧ s.pc + 2 < 256 ∧ s.reg 7 = 0 :=
  ⟨⟨start 253 [] [], by decide⟩, ⟨start 254 [] [], by decide⟩, start 0 [(7, 0)] [], by decide⟩

theorem test_hyp_RetPopsThePc :
    (∃ s : State, (s.reg 7).toNat = 243 ∧ (s.reg 7).toNat < 244) ∧ ∃ s : State, 244 ≤ (s.reg 7).toNat :=
  ⟨⟨State.reset.setReg 7 243, by decide⟩, State.reset, by decide⟩

theorem test_hyp_RetReturnsPastTheCall :
    ∃ (s t u : State) (r : Reg), s.mem.wf ∧ (s.reg 7).toNat ≤ 244 ∧ exec (.call (regByte r)) s = .next t ∧
      u.reg 7 = t.reg 7 ∧ u.mem.read (t.reg 7).toNat = t.mem.read (t.reg 7).toNat :=
  ⟨start 6 [(1, 0x0C)] [], _, _, 1, by decide, by decide, rfl, rfl, rfl⟩

theorem test_hyp_IntSetsThePendingBit :
    (∃ (s : State) (r : Reg), (s.reg r).toNat = 7 ∧ (s.reg r).toNat < 8) ∧
    ∃ (s : State) (r : Reg), (s.reg r).toNat = 8 ∧ 8 ≤ (s.reg r).toNat :=
  ⟨⟨State.reset.setReg 4 7, 4, by decide⟩, State.reset.setReg 4 8, 4, by decide⟩

theorem test_hyp_IretRestoresTheContext : ∃ s : State, (s.reg 7).toNat = 0xEB ∧ (s.reg 7).toNat ≤ 0xEB :=
  ⟨State.reset.setReg 7 0xEB, by decide⟩

theorem test_hyp_IretUnderflowKeepsThePopsDone :
    (∃ s : State, (s.reg 7).toNat = 0xEC ∧ 0xEB < (s.reg 7).toNat) ∧ ∃ s : State, 244 < (s.reg 7).toNat :=
  ⟨⟨State.reset.setReg 7 0xEC, by decide⟩, State.reset.setReg 7 0xFF, by decide⟩

/-- Each instruction of the frame completes on a state with room and a non-zero divisor. -/
theorem test_hyp_RegisterInstructionsFrame :
    ∀ i ∈ [Instr.add 0 1, .sub 0 1, .mul 0 1, .div 0 1, .mod 0 1, .and 0 1, .or 0 1, .xor 0 1, .shl 0 1, .shr 0 1,
      .inc 0, .dec 0, .not 0, .ldi 0 1, .ld 0 1], after (exec i (State.reset.setReg 1 1)) (fun _ => true) = true := by
  decide

theorem test_hyp_NoRegisterInstructionsFrame :
    ∀ i ∈ [Instr.cmp 0 1, .jmp 0, .jeq 0, .jne 0, .jgt 0, .jge 0, .jlt 0, .jle 0, .hlt, .nop, .prn 0, .pra 0],
      after (exec i State.reset) (fun _ => true) = true := by decide

theorem test_hyp_StoringInstructionsFrame :
    (∃ s t : State, exec (.st 0 1) s = .next t) ∧ (∃ s t : State, exec (.push 0) s = .next t) ∧
    ∃ s t : State, exec (.call 0) s = .next t :=
  ⟨⟨State.reset, _, rfl⟩, ⟨State.reset, _, rfl⟩, State.reset, _, rfl⟩

theorem test_hyp_PoppingInstructionsFrame :
    (∃ s t : State, exec (.pop 0) s = .next t) ∧ (∃ s t : State, exec .ret s = .next t) ∧
    (∃ s t : State, exec .iret s = .next t) ∧ ∃ s t : State, exec (.int 0) s = .next t :=
  ⟨⟨State.reset.setReg 7 0, _, rfl⟩, ⟨State.reset.setReg 7 0, _, rfl⟩, ⟨State.reset.setReg 7 0, _, rfl⟩,
    State.reset, _, rfl⟩

/-- Both answers of the choice occur: two lines deliverable, and none. -/
theorem test_hyp_ChosenLineIsTheLeastDeliverable :
    chosenLine (start 0 [(5, 0xFF), (6, 0x0A)] []) = some 1 ∧ chosenLine (start 0 [(5, 0x04), (6, 0x0B)] []) = none := by
  decide

theorem test_hyp_DeliverSavesTheContext :
    (∃ s : State, s.mem.wf ∧ s.pc = 255 ∧ s.pc < 256 ∧ (s.reg 7).toNat = 9 ∧ 9 ≤ (s.reg 7).toNat) ∧
    ∃ s : State, s.mem.wf ∧ s.pc = 256 ∧ 256 ≤ s.pc := ⟨⟨start 255 [(7, 9)] [], by decide⟩, start 256 [] [], by decide⟩

theorem test_hyp_DeliverOverflowKeepsThePushesDone :
    ∃ s : State, s.mem.wf ∧ s.pc < 256 ∧ (s.reg 7).toNat = 8 ∧ (s.reg 7).toNat < 9 := ⟨start 0 [(7, 8)] [], by decide⟩

theorem test_hyp_HandlerReturnRestoresTheContext :
    ∃ (s t u : State) (i : Line), s.mem.wf ∧ (s.reg 7).toNat ≤ 244 ∧ deliver i s = .next t ∧ u.reg 7 = t.reg 7 ∧
      ∀ addr, (t.reg 7).toNat ≤ addr → addr < (s.reg 7).toNat → u.mem.read addr = t.mem.read addr :=
  ⟨start 0x20 [(5, 1), (6, 1)] [], _, _, 0, by decide, by decide, rfl, rfl, fun _ _ _ => rfl⟩

theorem test_hyp_TimerCheckRaisesLineZero :
    (∃ s : State, s.tick = s.lastTick) ∧
    (∃ s : State, s.tick ≠ s.lastTick ∧ (s.reg 5).getLsbD 0 = true ∧ s.servicing = false) ∧
    (∃ s : State, s.tick ≠ s.lastTick ∧ (s.reg 5).getLsbD 0 = false) ∧
    ∃ s : State, s.tick ≠ s.lastTick ∧ s.servicing = true :=
  ⟨⟨State.reset, by decide⟩, ⟨(State.reset.setReg 5 1).advanceTick 1, by decide⟩, ⟨State.reset.advanceTick 1, by decide⟩,
    (State.reset.setServicing true).advanceTick 1, by decide⟩

theorem test_hyp_KeyEventIsAcceptedOrDropped :
    (∃ s : State, s.mem.wf ∧ (s.reg 5).getLsbD 1 = true ∧ (s.reg 6).getLsbD 1 = false) ∧
    (∃ s : State, s.mem.wf ∧ (s.reg 5).getLsbD 1 = false) ∧ ∃ s : State, s.mem.wf ∧ (s.reg 6).getLsbD 1 = true :=
  ⟨⟨State.reset.setReg 5 2, by decide⟩, ⟨State.reset, by decide⟩, State.reset.setReg 6 2, by decide⟩

theorem test_hyp_StopRequestHaltsAtTheBoundary :
    (∃ (s t : State) (es : List EnvStep) (rest : List (List EnvStep)), s.Active ∧ cycle s = .next t ∧
      t.schedule = es :: rest ∧ t.running = true ∧ .stopRequest ∈ es ∧ es ≠ [.stopRequest]) ∧
    (∃ (s t : State) (rest : List (List EnvStep)), s.Active ∧ cycle s = .next t ∧
      t.schedule = [.stopRequest] :: rest ∧ t.running = true) ∧
    ∃ (s t : State) (es : List EnvStep) (rest : List (List EnvStep)), s.Active ∧ cycle s = .next t ∧
      t.schedule = es :: rest ∧ t.running = true ∧ .stopRequest ∉ es :=
  ⟨⟨State.reset.setSchedule [[.advanceTick 1, .stopRequest, .keyEvent 0x41]], _, _, [], by decide, rfl, rfl, rfl,
      by decide, by decide⟩,
    ⟨State.reset.setSchedule [[.stopRequest]], _, [], by decide, rfl, rfl, rfl⟩,
    State.reset.setSchedule [[.keyEvent 0x41]], _, _, [], by decide, rfl, rfl, rfl, by decide⟩

theorem test_hyp_StepRaisesWhereDecodingFails :
    (∃ (s : State) (e : DecodeError), s.Active ∧ chosenLine s = none ∧ fetchDecode s = .error e) ∧
    (∃ s : State, s.Active ∧ chosenLine s = none ∧ s.pc = 256 ∧ 256 ≤ s.pc) ∧
    (∃ s : State, s.Active ∧ chosenLine s = none ∧ s.pc = 255 ∧ s.pc < 256 ∧
      lookupOpcode opcodeMap (s.mem.read s.pc) = none) ∧
    ∃ (s : State) (row : OpcodeRow), s.Active ∧ chosenLine s = none ∧ s.pc < 256 ∧
      lookupOpcode opcodeMap (s.mem.read s.pc) = some row ∧ 256 ≤ s.pc + row.format.count :=
  ⟨⟨start 254 [] [0x82], .missingByte 2, by decide, by decide, rfl⟩, ⟨start 256 [] [], by decide⟩,
    ⟨start 255 [] [0xFF], by decide, by decide, by decide, by decide, rfl⟩,
    start 254 [] [0x82], _, by decide, by decide, by decide, rfl, by decide⟩

theorem test_hyp_BoundaryAppliesTheEnvironmentSteps :
    (∃ s t : State, s.Active ∧ cycle s = .next t) ∧ (∃ t : State, t.running = false) ∧
    ∃ (t : State) (es : List EnvStep) (rest : List (List EnvStep)), t.running = true ∧ t.schedule = es :: rest ∧
      es = [.advanceTick 2, .keyEvent 0x41, .stopRequest] :=
  ⟨⟨State.reset, _, by decide, rfl⟩, ⟨State.reset.stop, rfl⟩,
    State.reset.setSchedule [[.advanceTick 2, .keyEvent 0x41, .stopRequest]], _, [], rfl, rfl, rfl⟩

end Sys2Proof.Tests
end

section
/-! The flag `servicing` (R15): the operations neither read nor write it, but for the two writers, IRET and a delivery. -/

namespace Sys2Proof.Machine

/-! ### Operations that carry `servicing` along unread -/

/-- An outcome with `servicing` replaced in the state it carries. -/
def withServicing (b : Bool) : Result → Result
  | .next s => .next (s.setServicing b)
  | .fault (.raised e w) => .fault (.raised e (w.setServicing b))
  | .refused f => .refused f

/-- The operation does the same whatever `servicing` is, and hands the flag on as it found it. -/
def IgnoresServicing (op : State → Result) : Prop :=
  ∀ (b : Bool) (s : State), op (s.setServicing b) = withServicing b (op s)

theorem raise_ignoresServicing (e : FatalError) : IgnoresServicing (raise e) := fun _ _ => rfl

theorem IgnoresServicing.andThen {op k : State → Result} (hop : IgnoresServicing op) (hk : IgnoresServicing k) :
    IgnoresServicing fun s => andThen (op s) k := by
  intro b s
  simp only [hop b s]
  cases op s with
  | next t => exact hk b t
  | fault f => rfl
  | refused f => rfl

theorem IgnoresServicing.ite {p : State → Prop} [∀ s, Decidable (p s)] {f g : State → Result}
    (hp : ∀ b s, p (s.setServicing b) ↔ p s) (hf : IgnoresServicing f) (hg : IgnoresServicing g) :
    IgnoresServicing fun s => if p s then f s else g s := by
  intro b s
  by_cases h : p s
  · simp only [if_pos h, if_pos ((hp b s).mpr h)]
    exact hf b s
  · simp only [if_neg h, if_neg (mt (hp b s).mp h)]
    exact hg b s

theorem withReg_ignoresServicing (v : Byte) {k : Reg → State → Result} (hk : ∀ r, IgnoresServicing (k r)) :
    IgnoresServicing fun s => withReg v s fun r => k r s := by
  intro b s
  by_cases h : v.toNat < 8
  · simp only [withReg_of_lt h]
    exact hk _ b s
  · simp only [withReg_of_ge (Nat.not_lt.mp h)]
    exact raise_ignoresServicing _ b s

theorem withRegs_ignoresServicing (v w : Byte) {k : Reg → Reg → State → Result}
    (hk : ∀ r q, IgnoresServicing (k r q)) : IgnoresServicing fun s => withRegs v w s fun r q => k r q s :=
  withReg_ignoresServicing v fun r => withReg_ignoresServicing w (hk r)

theorem push_ignoresServicing (v : Byte) : IgnoresServicing (push v) := by
  intro b s
  by_cases h : s.sp = 0
  · rw [push_of_zero h, push_of_zero (s := s.setServicing b) h]
    rfl
  · rw [push_of_ne h, push_of_ne (s := s.setServicing b) h]
    rfl

theorem pop_ignoresServicing {k : Byte → State → Result} (hk : ∀ v, IgnoresServicing (k v)) :
    IgnoresServicing fun s => pop s k := by
  intro b s
  by_cases h : s.sp.toNat < 244
  · simp only [pop_of_lt k h, pop_of_lt (s := s.setServicing b) k h]
    exact hk (s.mem.read s.sp.toNat) b (s.setReg 7 (s.sp + 1))
  · simp only [pop_of_ge (Nat.not_lt.mp h), pop_of_ge (s := s.setServicing b) (Nat.not_lt.mp h)]
    rfl

theorem pushAll_ignoresServicing (vs : List Byte) : IgnoresServicing (pushAll vs) := by
  induction vs with
  | nil => exact fun _ _ => rfl
  | cons v vs ih => exact (push_ignoresServicing v).andThen ih

theorem popRegs_ignoresServicing (rs : List Reg) : IgnoresServicing (popRegs rs) := by
  induction rs with
  | nil => exact fun _ _ => rfl
  | cons r rs ih => exact pop_ignoresServicing fun v b s => ih b (s.setReg r v)

theorem keyEvent_setServicing (c : Byte) (s : State) (b : Bool) :
    keyEvent c (s.setServicing b) = (keyEvent c s).setServicing b := by
  unfold keyEvent
  rw [apply_ite (State.setServicing · b)]
  rfl

/-! ### Instructions -/

theorem binaryAlu_ignoresServicing (f : Byte → Byte → Byte) (v w : Byte) : IgnoresServicing (binaryAlu f v w) :=
  withRegs_ignoresServicing v w fun _ _ _ _ => rfl

theorem dividingAlu_ignoresServicing (f : Byte → Byte → Byte) (v w : Byte) :
    IgnoresServicing (dividingAlu f v w) :=
  withRegs_ignoresServicing v w fun _ q =>
    .ite (p := fun s => s.reg q = 0) (fun _ _ => .rfl) (raise_ignoresServicing _) fun _ _ => rfl

theorem unaryAlu_ignoresServicing (f : Byte → Byte) (v : Byte) : IgnoresServicing (unaryAlu f v) :=
  withReg_ignoresServicing v fun _ _ _ => rfl

/-- The test of a jump reads FL only. -/
theorem jumpIf_ignoresServicing (taken : Byte → Bool) (v : Byte) : IgnoresServicing fun s => jumpIf (taken s.fl) v s :=
  withReg_ignoresServicing v fun r b s =>
    congrArg Host.Outcome.next
      (apply_ite (State.setServicing · b) (taken s.fl = true) (s.setPc (s.reg r).toNat) (s.advance 2)).symm

theorem execCmp_ignoresServicing (v w : Byte) : IgnoresServicing (execCmp v w) :=
  withRegs_ignoresServicing v w fun _ _ _ _ => rfl

theorem execLdi_ignoresServicing (v w : Byte) : IgnoresServicing (execLdi v w) :=
  withReg_ignoresServicing v fun _ _ _ => rfl

theorem execLd_ignoresServicing (v w : Byte) : IgnoresServicing (execLd v w) :=
  withRegs_ignoresServicing v w fun _ q b s => by
    simp only [memRead_byte]
    rfl

theorem execSt_ignoresServicing (v w : Byte) : IgnoresServicing (execSt v w) :=
  withRegs_ignoresServicing v w fun _ _ b s => by
    simp only [memWrite_byte, andThen_next]
    rfl

theorem execPush_ignoresServicing (v : Byte) : IgnoresServicing (execPush v) :=
  withReg_ignoresServicing v fun r b s =>
    (push_ignoresServicing (s.reg r)).andThen (k := fun t => .next (t.advance 2)) (fun _ _ => rfl) b s

theorem execPop_ignoresServicing (v : Byte) : IgnoresServicing (execPop v) :=
  withReg_ignoresServicing v fun _ => pop_ignoresServicing fun _ _ _ => rfl

theorem execCall_ignoresServicing (v : Byte) : IgnoresServicing (execCall v) :=
  withReg_ignoresServicing v fun r =>
    .ite (p := fun s => 256 ≤ s.pc + 2) (fun _ _ => .rfl) (fun _ _ => rfl) fun b s =>
      (push_ignoresServicing (BitVec.ofNat 8 (s.pc + 2))).andThen (k := fun t => .next (t.setPc (t.reg r).toNat))
        (fun _ _ => rfl) b s

theorem execRet_ignoresServicing : IgnoresServicing execRet := pop_ignoresServicing fun _ _ _ => rfl

theorem execInt_ignoresServicing (v : Byte) : IgnoresServicing (execInt v) := by
  refine withReg_ignoresServicing v fun r b s => ?_
  by_cases h : (s.reg r).toNat < 8 <;> simp only [State.setServicing_reg, h, ↓reduceDIte] <;> rfl

theorem execPrn_ignoresServicing (v : Byte) : IgnoresServicing (execPrn v) :=
  withReg_ignoresServicing v fun _ _ _ => rfl

theorem execPra_ignoresServicing (v : Byte) : IgnoresServicing (execPra v) :=
  withReg_ignoresServicing v fun _ _ _ => rfl

/-- No instruction but IRET reads or writes `servicing`. -/
theorem exec_ignoresServicing {i : Instr} (hi : i ≠ .iret) : IgnoresServicing (exec i) := by
  cases i with
  | add v w | sub v w | mul v w | and v w | or v w | xor v w | shl v w | shr v w =>
    exact binaryAlu_ignoresServicing _ v w
  | div v w | mod v w => exact dividingAlu_ignoresServicing _ v w
  | inc v | dec v | not v => exact unaryAlu_ignoresServicing _ v
  | cmp v w => exact execCmp_ignoresServicing v w
  | ldi v w => exact execLdi_ignoresServicing v w
  | ld v w => exact execLd_ignoresServicing v w
  | st v w => exact execSt_ignoresServicing v w
  | push v => exact execPush_ignoresServicing v
  | pop v => exact execPop_ignoresServicing v
  | jmp v => exact jumpIf_ignoresServicing (fun _ => true) v
  | jeq v => exact jumpIf_ignoresServicing takenEq v
  | jne v => exact jumpIf_ignoresServicing (takenNe Config.jneRequiresRelation) v
  | jgt v => exact jumpIf_ignoresServicing takenGt v
  | jge v => exact jumpIf_ignoresServicing takenGe v
  | jlt v => exact jumpIf_ignoresServicing takenLt v
  | jle v => exact jumpIf_ignoresServicing takenLe v
  | call v => exact execCall_ignoresServicing v
  | ret => exact execRet_ignoresServicing
  | int v => exact execInt_ignoresServicing v
  | iret => exact absurd rfl hi
  | hlt | nop => exact fun _ _ => rfl
  | prn v => exact execPrn_ignoresServicing v
  | pra v => exact execPra_ignoresServicing v

/-! ### The two writers: IRET and a delivery -/

theorem returnFromInterrupt_servicing {s t : State} (h : returnFromInterrupt s = .next t) : t.servicing = false := by
  simp only [returnFromInterrupt, andThen_eq_next, pop_eq_next, Host.Outcome.next.injEq] at h
  obtain ⟨_, _, _, _, rfl⟩ := h
  rfl

/-- IRET ends in the same state whatever `servicing` was. -/
theorem returnFromInterrupt_setServicing {s t : State} (b : Bool) (h : returnFromInterrupt s = .next t) :
    returnFromInterrupt (s.setServicing b) = .next t := by
  obtain ⟨u, hu, hpops⟩ := andThen_eq_next.mp h
  refine andThen_eq_next.mpr ⟨u.setServicing b,
    (popRegs_ignoresServicing returnRegs b s).trans (congrArg (withServicing b) hu), ?_⟩
  simp only [pop_eq_next] at hpops ⊢
  exact hpops

/-- A delivery ends in the same state whatever `servicing` was: the flag is not in the frame. -/
theorem deliver_setServicing {i : Line} {s t : State} (b : Bool) (h : deliver i s = .next t) :
    deliver i (s.setServicing b) = .next t := by
  unfold deliver at h ⊢
  split at h
  · exact absurd h (raise_ne_next _ _ _)
  · rename_i hpc
    obtain ⟨u, hu, hvector⟩ := andThen_eq_next.mp h
    rw [State.setServicing_pc, if_neg hpc]
    refine andThen_eq_next.mpr ⟨u.setServicing b, ?_, by rw [memRead_vector] at hvector ⊢; exact hvector⟩
    exact (pushAll_ignoresServicing (interruptFrame (clearPending i s)) b _).trans
      (congrArg (withServicing b) hu)

/-- What an instruction does under another value of `servicing`: the same, the flag handed on unless it is IRET. -/
theorem exec_setServicing {i : Instr} {s t : State} (b : Bool) (h : exec i s = .next t) :
    exec i (s.setServicing b) = .next (t.setServicing (if i = .iret then false else b)) := by
  by_cases hi : i = .iret
  · subst hi
    have hclear : t.setServicing false = t := by rw [← returnFromInterrupt_servicing h]; rfl
    rw [if_pos rfl, hclear]
    exact returnFromInterrupt_setServicing b h
  · rw [if_neg hi, exec_ignoresServicing hi, h]
    rfl

/-- IRET clears `servicing`, every other instruction leaves it. -/
theorem exec_servicing {i : Instr} {s t : State} (h : exec i s = .next t) :
    t.servicing = if i = .iret then false else s.servicing := by
  have hsame : Host.Outcome.next t = _ := h.symm.trans (exec_setServicing s.servicing h)
  exact congrArg State.servicing (Host.Outcome.next.inj hsame)

/-- What a step does to `servicing`: a delivery sets it, IRET clears it, every other instruction leaves it. -/
theorem step_servicing {s t : State} (hs : s.Active) (h : step s = .next t) :
    (∃ i, chosenLine s = some i) ∧ t.servicing = true ∨
      chosenLine s = none ∧ ∃ i, fetchDecode s = .ok i ∧ t.servicing = if i = .iret then false else s.servicing := by
  rw [step_of_active hs] at h
  obtain ⟨u, hu, hb⟩ := andThen_eq_next.mp h
  cases hb
  obtain ⟨-, -, hboundary, -⟩ := boundary_keeps u
  obtain ⟨-, htimer, -⟩ := timerCheck_keeps Config.tickDeferred s
  rw [hboundary]
  rcases cycle_cases hu with ⟨i, hline, hdeliver⟩ | ⟨hline, i, hfetch, hexec⟩
  · obtain ⟨-, -, -, -, hset, -⟩ := deliver_keeps hdeliver
    exact .inl ⟨⟨i, hline⟩, hset⟩
  · exact .inr ⟨hline, i, hfetch, by rw [exec_servicing hexec, htimer]⟩

/-- Settles O19: `exec_setServicing` says that an instruction carries the flag along unless it is IRET, and
`step_servicing` follows the flag through a step. -/
theorem servicingIsSetByDeliveryAndClearedByIret : Obligations.ServicingIsSetByDeliveryAndClearedByIret := by
  refine ⟨fun s t hs h hbefore hafter => ?_, fun s t hs h hbefore hafter => ?_, fun _ _ _ b h => exec_setServicing b h,
    fun _ _ h => returnFromInterrupt_servicing h, fun i s t b h => ?_, fun c s b => keyEvent_setServicing c s b⟩
  · rcases step_servicing hs h with ⟨hline, -⟩ | ⟨-, i, -, hflag⟩
    · exact hline
    · simp [hbefore, hafter] at hflag
  · rcases step_servicing hs h with ⟨-, hset⟩ | ⟨hline, i, hfetch, hflag⟩
    · simp [hafter] at hset
    · have hi : i = .iret := by simpa [hbefore, hafter] using hflag
      exact ⟨hline, hi ▸ hfetch⟩
  · obtain ⟨-, -, -, -, hset, -⟩ := deliver_keeps h
    exact ⟨hset, deliver_setServicing b h⟩

end Sys2Proof.Machine
end

section
/-! The memory accesses (R31, R32) and the stack primitives (R37, R38), in range and out of range. -/

namespace Sys2Proof.Machine

/-! ### One lemma for each access on each side of its range check -/

/-- `raise` sets `fault` and nothing else (R167). -/
theorem raisesOnly_raise (e : FatalError) (s : State) : RaisesOnly (raise e s) e s := rfl

theorem memRead_of_lt {addr : Nat} (h : addr < 256) (s : State) (k : Byte → Result) :
    memRead addr s k = k (s.mem.read addr) := if_pos h

theorem memRead_of_ge {addr : Nat} (h : 256 ≤ addr) (s : State) (k : Byte → Result) :
    memRead addr s k = raise (.outOfBoundsAccess addr) s := if_neg (Nat.not_lt.mpr h)

theorem memWrite_of_lt {addr : Nat} (h : addr < 256) (v : Byte) (s : State) :
    memWrite addr v s = .next (s.setMem addr v) := if_pos h

theorem memWrite_of_ge {addr : Nat} (h : 256 ≤ addr) (v : Byte) (s : State) :
    memWrite addr v s = raise (.outOfBoundsAccess addr) s := if_neg (Nat.not_lt.mpr h)

/-- A write changes one cell of a canonical memory and keeps it canonical. -/
theorem Memory.write_changes_one_cell {m : Memory} {addr : Nat} (hm : m.wf) (ha : addr < 256) (v : Byte) :
    (m.write addr v).wf ∧ (m.write addr v).read addr = v ∧
      ∀ b, b ≠ addr → (m.write addr v).read b = m.read b :=
  ⟨Memory.wf_write v hm ha, Memory.read_write_self hm addr v, fun _ hb => Memory.read_write_of_ne m v hb⟩

/-! ### The statements -/

/-- Settles O23: by the two sides of the range check. -/
theorem memoryAccesses : Obligations.MemoryAccesses := by
  refine fun s addr v k hs => ⟨fun hin => ⟨memRead_of_lt hin s k, ?_⟩, fun hout => ⟨?_, ?_⟩⟩
  · exact ⟨s.mem.write addr v, memWrite_of_lt hin v s, Memory.write_changes_one_cell hs hin v⟩
  · rw [memRead_of_ge hout]
    exact raisesOnly_raise _ s
  · rw [memWrite_of_ge hout]
    exact raisesOnly_raise _ s

/-- Settles O24: `push_of_zero` and `push_of_ne` say what a push does; the new SP is a byte, so its cell exists. -/
theorem pushPrimitive : Obligations.PushPrimitive := by
  refine fun s v hs => ⟨fun hempty => ?_, fun hroom => ?_⟩
  · rw [push_of_zero hempty]
    exact raisesOnly_raise _ s
  · exact ⟨s.mem.write (s.reg 7 - 1).toNat v, push_of_ne hroom,
      Memory.write_changes_one_cell hs (s.reg 7 - 1).isLt v⟩

/-- Settles O25: `pop_of_ge` and `pop_of_lt` say what a pop does; an SP below 0xF4 is far from the wrap. -/
theorem popPrimitive : Obligations.PopPrimitive := by
  refine fun s k => ⟨fun hempty => ?_, fun hbyte => ⟨pop_of_lt k hbyte, ?_⟩⟩
  · rw [pop_of_ge hempty]
    exact raisesOnly_raise _ s
  · exact BitVec.toNat_add_of_lt (show (s.reg 7).toNat + 1 < 2 ^ 8 by omega)

end Sys2Proof.Machine
end

section
/-! Fetching and decoding (R73 to R75): which bytes a decoding reads, what it makes of them, and step 5 of the cycle. -/

namespace Sys2Proof

/-! ### The decoder on a row of the table -/

/-- The instruction a row makes of the bytes `b`, where `b k` is byte `k` of the instruction (R50). -/
def OpcodeRow.instr (row : OpcodeRow) (b : Nat → Byte) : Instr :=
  match row.format with
  | .f0 i => i
  | .f1 make => make (b 1)
  | .f2 make => make (b 1) (b 2)

theorem lookupOpcode_eq_some {map : List OpcodeRow} {op : Byte} {row : OpcodeRow}
    (h : lookupOpcode map op = some row) : row ∈ map ∧ row.opcode = op :=
  ⟨List.mem_of_find?_eq_some h, by simpa using List.find?_some h⟩

/-- Without an opcode byte there is nothing to decode. -/
theorem decodeFrom_of_no_opcode (map : List OpcodeRow) {byteAt : Nat → Option Byte} (h : byteAt 0 = none) :
    decodeFrom map byteAt = .error (.missingByte 0) := by
  simp [decodeFrom, h]

/-- The opcode byte and the operand bytes of its row's count are all a decoding needs. -/
theorem decodeFrom_of_present {map : List OpcodeRow} {byteAt : Nat → Option Byte} {b : Nat → Byte} {row : OpcodeRow}
    (hrow : lookupOpcode map (b 0) = some row) (hbytes : ∀ k ≤ row.format.count, byteAt k = some (b k)) :
    decodeFrom map byteAt = .ok (row.instr b) := by
  have h0 := hbytes 0 (Nat.zero_le _)
  obtain ⟨opcode, mnemonic, format, category⟩ := row
  cases format with
  | f0 i => simp [decodeFrom, h0, hrow, OpcodeRow.instr]
  | f1 make => simp [decodeFrom, h0, hrow, OpcodeRow.instr, hbytes 1 (Nat.le_refl 1)]
  | f2 make => simp [decodeFrom, h0, hrow, OpcodeRow.instr, hbytes 1 (Nat.le_succ 1), hbytes 2 (Nat.le_refl 2)]

/-- A decoding fails on the first operand byte that is not there. -/
theorem decodeFrom_of_missing_operand {map : List OpcodeRow} {byteAt : Nat → Option Byte} {b : Nat → Byte}
    {row : OpcodeRow} {n : Nat} (hrow : lookupOpcode map (b 0) = some row) (hpos : 0 < n)
    (hn : n ≤ row.format.count) (hbefore : ∀ k < n, byteAt k = some (b k)) (hmissing : byteAt n = none) :
    decodeFrom map byteAt = .error (.missingByte n) := by
  have h0 := hbefore 0 hpos
  obtain ⟨opcode, mnemonic, format, category⟩ := row
  cases format with
  | f0 i => exact absurd hn (Nat.not_le.mpr hpos)
  | f1 make =>
    obtain rfl : n = 1 := Nat.le_antisymm hn hpos
    simp [decodeFrom, h0, hrow, hmissing]
  | f2 make =>
    obtain rfl | hn1 := Nat.eq_or_lt_of_le hpos
    · simp [decodeFrom, h0, hrow, hmissing]
    · obtain rfl : n = 2 := Nat.le_antisymm hn hn1
      simp [decodeFrom, h0, hrow, hbefore 1 hn1, hmissing]

/-! ### The rows of the opcode map against R50 and R53 -/

/-- What a row makes of `b` has the row's operand count, and its encoding is the row's opcode byte and as many operand
bytes of `b`. -/
def OpcodeRow.AgreesWithEncode (row : OpcodeRow) : Prop :=
  ∀ b : Nat → Byte, (row.instr b).operandCount = row.format.count ∧
    encode (row.instr b) = row.opcode :: (List.range row.format.count).map fun k => b (k + 1)

/-- The table of R56 and the column `hex` written out in `encode` say the same, row by row. -/
theorem opcodeRow_agreesWithEncode {row : OpcodeRow} (h : row ∈ opcodeMap) : row.AgreesWithEncode := by
  unfold opcodeMap opcodeRowsF0 opcodeRowsF1 opcodeRowsF2 at h
  fin_cases h <;> exact fun _ => ⟨rfl, rfl⟩

/-- The encoding of what a row makes of `b` is `b` up to the row's count, where `b` begins with the row's opcode byte. -/
theorem getElem?_encode_instr {row : OpcodeRow} (h : row ∈ opcodeMap) {b : Nat → Byte} (hop : row.opcode = b 0)
    (k : Nat) : (encode (row.instr b))[k]? = if k ≤ row.format.count then some (b k) else none := by
  obtain ⟨-, hencode⟩ := opcodeRow_agreesWithEncode h b
  rw [hencode]
  cases k with
  | zero => simp [hop]
  | succ k =>
    by_cases hk : k < row.format.count <;> simp [hk]

end Sys2Proof

namespace Sys2Proof.Machine

/-! ### Step 5 of the cycle -/

theorem byteAt?_of_lt {s : State} {addr : Nat} (h : addr < 256) : s.byteAt? addr = some (s.mem.read addr) := if_pos h

theorem byteAt?_of_ge {s : State} {addr : Nat} (h : 256 ≤ addr) : s.byteAt? addr = none := if_neg (Nat.not_lt.mpr h)

theorem fetchExecute_of_ok {s : State} {i : Instr} (h : fetchDecode s = .ok i) : fetchExecute s = exec i s := by
  simp only [fetchExecute, h]

theorem fetchExecute_of_error {s : State} {e : DecodeError} (h : fetchDecode s = .error e) :
    RaisesOnly (fetchExecute s) (decodeFault e s) s := by
  simp only [fetchExecute, h]
  exact raisesOnly_raise _ s

/-- The opcode fetch fails where `pc` is not an address (R73). -/
theorem fetchDecode_of_pc_ge {s : State} (h : 256 ≤ s.pc) : fetchDecode s = .error (.missingByte 0) :=
  decodeFrom_of_no_opcode opcodeMap (byteAt?_of_ge h)

/-- The first operand fetch past 255 fails (R75). -/
theorem fetchDecode_of_operand_ge {s : State} {row : OpcodeRow} (hpc : s.pc < 256)
    (hrow : lookupOpcode opcodeMap (s.mem.read s.pc) = some row) (hpast : 256 ≤ s.pc + row.format.count) :
    fetchDecode s = .error (.missingByte (256 - s.pc)) :=
  decodeFrom_of_missing_operand (b := fun k => s.mem.read (s.pc + k)) hrow (by omega) (by omega)
    (fun _ _ => byteAt?_of_lt (by omega)) (byteAt?_of_ge (by omega))

/-- An instruction whose bytes all lie at 255 or below is fetched (R75). -/
theorem fetchDecode_of_fits {s : State} {row : OpcodeRow}
    (hrow : lookupOpcode opcodeMap (s.mem.read s.pc) = some row) (hfits : s.pc + row.format.count < 256) :
    fetchDecode s = .ok (row.instr fun k => s.mem.read (s.pc + k)) :=
  decodeFrom_of_present hrow fun _ _ => byteAt?_of_lt (by omega)

/-! ### The statement -/

/-- Settles O4: by where the first byte past 255 falls, at the opcode, at an operand of the row's count or nowhere. -/
theorem fetchRaisesOutOfBoundsOnlyPastMemory : Obligations.FetchRaisesOutOfBoundsOnlyPastMemory := by
  refine fun s => ⟨fun hpc => ?_, fun row hpc hrow => ⟨fun hpast => ?_, fun hfits => ?_⟩⟩
  · exact fetchExecute_of_error (fetchDecode_of_pc_ge hpc)
  · have hraise := fetchExecute_of_error (fetchDecode_of_operand_ge hpc hrow hpast)
    rwa [decodeFault, Nat.add_sub_of_le hpc.le] at hraise
  · obtain ⟨hmem, hop⟩ := lookupOpcode_eq_some hrow
    obtain ⟨hcount, -⟩ := opcodeRow_agreesWithEncode hmem fun k => s.mem.read (s.pc + k)
    exact ⟨_, hcount, getElem?_encode_instr hmem hop,
      fetchExecute_of_ok (fetchDecode_of_fits hrow hfits)⟩

end Sys2Proof.Machine
end

section
/-! The ALU instructions (R90 to R105): what each of the three shapes does on operand bytes that name registers, the
bytes it computes in arithmetic on naturals, and when a division raises (R164). -/

namespace Sys2Proof.Machine

/-! ### The shapes of ALU instructions, on operand bytes that name registers -/

theorem withRegs_regByte (ra rb : Reg) (s : State) (k : Reg → Reg → Result) :
    withRegs (regByte ra) (regByte rb) s k = k ra rb := by
  rw [withRegs, withReg_regByte, withReg_regByte]

theorem binaryAlu_regByte (f : Byte → Byte → Byte) (ra rb : Reg) (s : State) :
    binaryAlu f (regByte ra) (regByte rb) s = .next ((s.setReg ra (f (s.reg ra) (s.reg rb))).advance 3) :=
  withRegs_regByte ra rb s _

theorem dividingAlu_of_zero (f : Byte → Byte → Byte) (ra : Reg) {rb : Reg} {s : State} (h : s.reg rb = 0) :
    dividingAlu f (regByte ra) (regByte rb) s = raise .divisionByZero s := by
  rw [dividingAlu, withRegs_regByte, if_pos h]

theorem dividingAlu_of_ne (f : Byte → Byte → Byte) (ra : Reg) {rb : Reg} {s : State} (h : s.reg rb ≠ 0) :
    dividingAlu f (regByte ra) (regByte rb) s = .next ((s.setReg ra (f (s.reg ra) (s.reg rb))).advance 3) := by
  rw [dividingAlu, withRegs_regByte, if_neg h]

theorem unaryAlu_regByte (f : Byte → Byte) (ra : Reg) (s : State) :
    unaryAlu f (regByte ra) s = .next ((s.setReg ra (f (s.reg ra))).advance 2) :=
  withReg_regByte ra s _

theorem execCmp_regByte (ra rb : Reg) (s : State) :
    execCmp (regByte ra) (regByte rb) s = .next ((s.setFl (compareFlags (s.reg ra) (s.reg rb))).advance 3) :=
  withRegs_regByte ra rb s _

/-! ### What an instruction of each shape writes -/

theorem writesRegister_of_binaryAlu {i : Instr} {f : Byte → Byte → Byte} {ra rb : Reg} {s : State} {v : Byte}
    (hi : exec i s = binaryAlu f (regByte ra) (regByte rb) s) (hv : f (s.reg ra) (s.reg rb) = v) :
    WritesRegister i s ra v :=
  ⟨s.pc + 3, by rw [hi, binaryAlu_regByte, hv]; rfl⟩

theorem writesRegister_of_dividingAlu {i : Instr} {f : Byte → Byte → Byte} {ra rb : Reg} {s : State} {v : Byte}
    (hi : exec i s = dividingAlu f (regByte ra) (regByte rb) s) (hpos : 1 ≤ (s.reg rb).toNat)
    (hv : f (s.reg ra) (s.reg rb) = v) : WritesRegister i s ra v := by
  have hne : s.reg rb ≠ 0 := fun h => by simp [h] at hpos
  exact ⟨s.pc + 3, by rw [hi, dividingAlu_of_ne f ra hne, hv]; rfl⟩

theorem writesRegister_of_unaryAlu {i : Instr} {f : Byte → Byte} {ra : Reg} {s : State} {v : Byte}
    (hi : exec i s = unaryAlu f (regByte ra) s) (hv : f (s.reg ra) = v) : WritesRegister i s ra v :=
  ⟨s.pc + 2, by rw [hi, unaryAlu_regByte, hv]; rfl⟩

/-- CMP writes the comparison of its registers to FL (R104). -/
theorem writesFlags_cmp (ra rb : Reg) (s : State) :
    WritesFlags (.cmp (regByte ra) (regByte rb)) s (compareFlags (s.reg ra) (s.reg rb)) :=
  ⟨s.pc + 3, execCmp_regByte ra rb s⟩

/-! ### The results as naturals (R91 to R104) -/

theorem aluAdd_eq_ofNat (p q : Byte) : aluAdd p q = BitVec.ofNat 8 ((p.toNat + q.toNat) % 256) :=
  BitVec.eq_of_toNat_eq (by simp [aluAdd])

/-- A difference borrows 256 exactly where it would be negative. -/
theorem aluSub_eq_ofNat (p q : Byte) :
    aluSub p q = BitVec.ofNat 8 (if q.toNat ≤ p.toNat then p.toNat - q.toNat else p.toNat + 256 - q.toNat) := by
  have hp := p.isLt
  have hq := q.isLt
  apply BitVec.eq_of_toNat_eq
  rw [aluSub, BitVec.toNat_sub, BitVec.toNat_ofNat]
  split <;> omega

theorem aluMul_eq_ofNat (p q : Byte) : aluMul p q = BitVec.ofNat 8 ((p.toNat * q.toNat) % 256) :=
  BitVec.eq_of_toNat_eq (by simp [aluMul])

theorem aluDiv_eq_ofNat (p q : Byte) : aluDiv p q = BitVec.ofNat 8 (p.toNat / q.toNat) :=
  BitVec.udiv_def

theorem aluMod_eq_ofNat (p q : Byte) : aluMod p q = BitVec.ofNat 8 (p.toNat - q.toNat * (p.toNat / q.toNat)) := by
  rw [aluMod, BitVec.umod_def, Nat.mod_eq_sub]

theorem aluShl_eq_ofNat (p q : Byte) : aluShl p q = BitVec.ofNat 8 ((p.toNat * 2 ^ q.toNat) % 256) :=
  BitVec.eq_of_toNat_eq (by simp [aluShl, Nat.shiftLeft_eq])

/-- A count of 8 or more shifts every bit out to the left. -/
theorem aluShl_eq_zero {q : Byte} (h : 8 ≤ q.toNat) (p : Byte) : aluShl p q = 0 :=
  BitVec.shiftLeft_eq_zero h

theorem aluShr_eq_ofNat (p q : Byte) : aluShr p q = BitVec.ofNat 8 (p.toNat / 2 ^ q.toNat) := by
  rw [← Nat.shiftRight_eq_div_pow, ← BitVec.toNat_ushiftRight, BitVec.ofNat_toNat, BitVec.setWidth_eq, aluShr]

/-- A count of 8 or more shifts every bit out to the right. -/
theorem aluShr_eq_zero {q : Byte} (h : 8 ≤ q.toNat) (p : Byte) : aluShr p q = 0 :=
  BitVec.ushiftRight_eq_zero h

theorem aluInc_eq_ofNat (p : Byte) : aluInc p = BitVec.ofNat 8 ((p.toNat + 1) % 256) :=
  aluAdd_eq_ofNat p 1

theorem aluDec_eq_ofNat (p : Byte) : aluDec p = BitVec.ofNat 8 (if 1 ≤ p.toNat then p.toNat - 1 else 255) := by
  rw [show aluDec p = aluSub p 1 from rfl, aluSub_eq_ofNat, show (1 : Byte).toNat = 1 from rfl]
  by_cases hp : 1 ≤ p.toNat
  · rw [if_pos hp, if_pos hp]
  · rw [if_neg hp, if_neg hp, Nat.eq_zero_of_not_pos hp]

/-- The complement never borrows, since 255 is the greatest byte. -/
theorem aluNot_eq_ofNat (p : Byte) : aluNot p = BitVec.ofNat 8 (255 - p.toNat) := by
  have hp : p.toNat ≤ 255 := Nat.le_of_lt_succ p.isLt
  exact (aluSub_eq_ofNat 255 p).trans (congrArg (BitVec.ofNat 8) (if_pos hp))

theorem compareFlags_eq (p q : Byte) :
    compareFlags p q = if p.toNat = q.toNat then 1 else if p.toNat > q.toNat then 2 else 4 := by
  simp only [compareFlags, BitVec.toNat_inj, BitVec.lt_def, gt_iff_lt]

/-! ### When a division raises -/

/-- An operand byte names a register exactly when it is the byte of one. -/
theorem namesReg_iff {v : Byte} : NamesReg v ↔ ∃ r, v = regByte r :=
  ⟨fun h => ⟨_, eq_regByte h⟩, fun ⟨r, h⟩ => by rw [h, NamesReg, regByte_toNat]; exact r.isLt⟩

/-- Different registers have different bytes. -/
theorem regByte_injective : Function.Injective regByte := fun r q h => by
  rw [Fin.ext_iff, ← regByte_toNat r, h, regByte_toNat]

theorem raises_raise {e e' : FatalError} {s : State} : Raises (raise e s) e' ↔ e = e' := by
  simp only [Raises, raise_eq_fault, exists_and_left, exists_eq', and_true]

/-- Past its own error, a register operand raises where it names a register and the rest raises. -/
theorem raises_withReg {v : Byte} {s : State} {k : Reg → Result} {e : FatalError}
    (he : FatalError.undefined .registerIndex v.toNat ≠ e) :
    Raises (withReg v s k) e ↔ ∃ r, v = regByte r ∧ Raises (k r) e := by
  by_cases hv : NamesReg v
  · obtain ⟨r, rfl⟩ := namesReg_iff.mp hv
    rw [withReg_regByte]
    refine ⟨fun h => ⟨r, rfl, h⟩, fun ⟨q, hq, h⟩ => ?_⟩
    rwa [regByte_injective hq]
  · rw [withReg_of_ge (Nat.not_lt.mp hv), raises_raise]
    exact ⟨fun h => absurd h he, fun ⟨r, hr, _⟩ => absurd (namesReg_iff.mpr ⟨r, hr⟩) hv⟩

theorem raises_ite_raise_next {p : Prop} [Decidable p] {e : FatalError} {s t : State} :
    Raises (if p then raise e s else .next t) e ↔ p := by
  by_cases hp : p
  · simp [hp, raises_raise]
  · simp [hp, Raises]

/-- A register operand that names none raises its own error first, so a division by zero needs both to name one. -/
theorem raises_divisionByZero_dividingAlu (f : Byte → Byte → Byte) (a b : Byte) (s : State) :
    Raises (dividingAlu f a b s) .divisionByZero ↔ NamesReg a ∧ ∃ rb, b = regByte rb ∧ s.reg rb = 0 := by
  have hne (v : Byte) : FatalError.undefined .registerIndex v.toNat ≠ .divisionByZero := nofun
  simp only [dividingAlu, withRegs, raises_withReg (hne _), raises_ite_raise_next, namesReg_iff,
    exists_and_right]

/-! ### The statements -/

/-- Settles O27: the lemma on the instruction's shape says that it writes what its operation computes, and the lemma on
the operation says which byte that is. -/
theorem aluLaws : Obligations.AluLaws := by
  refine fun s ra rb => ⟨?add, ?sub, ?mul, fun hpos => ?div, fun hpos => ?mod, fun hzero => ?zeroDivisor, ?and, ?or,
    ?xor, ?shl, fun hall => ?shlAll, ?shr, fun hall => ?shrAll, ?inc, ?dec, ?not, ?cmp⟩
  case add => exact writesRegister_of_binaryAlu rfl (aluAdd_eq_ofNat _ _)
  case sub => exact writesRegister_of_binaryAlu rfl (aluSub_eq_ofNat _ _)
  case mul => exact writesRegister_of_binaryAlu rfl (aluMul_eq_ofNat _ _)
  case div => exact writesRegister_of_dividingAlu rfl hpos (aluDiv_eq_ofNat _ _)
  case mod => exact writesRegister_of_dividingAlu rfl hpos (aluMod_eq_ofNat _ _)
  case zeroDivisor =>
    have h0 : s.reg rb = 0 := BitVec.eq_of_toNat_eq hzero
    exact ⟨dividingAlu_of_zero aluDiv ra h0, dividingAlu_of_zero aluMod ra h0⟩
  case and => exact ⟨_, writesRegister_of_binaryAlu rfl rfl, fun _ _ => BitVec.getLsbD_and⟩
  case or => exact ⟨_, writesRegister_of_binaryAlu rfl rfl, fun _ _ => BitVec.getLsbD_or⟩
  case xor => exact ⟨_, writesRegister_of_binaryAlu rfl rfl, fun _ _ => BitVec.getLsbD_xor⟩
  case shl => exact writesRegister_of_binaryAlu rfl (aluShl_eq_ofNat _ _)
  case shlAll => exact writesRegister_of_binaryAlu rfl (aluShl_eq_zero hall _)
  case shr => exact writesRegister_of_binaryAlu rfl (aluShr_eq_ofNat _ _)
  case shrAll => exact writesRegister_of_binaryAlu rfl (aluShr_eq_zero hall _)
  case inc => exact writesRegister_of_unaryAlu rfl (aluInc_eq_ofNat _)
  case dec => exact writesRegister_of_unaryAlu rfl (aluDec_eq_ofNat _)
  case not => exact writesRegister_of_unaryAlu rfl (aluNot_eq_ofNat _)
  case cmp => exact compareFlags_eq (s.reg ra) (s.reg rb) ▸ writesFlags_cmp ra rb s

/-- Settles O28: DIV and MOD have one shape, and `raises_divisionByZero_dividingAlu` says when it raises. -/
theorem divisionByZeroExactlyOnZeroDivisor : Obligations.DivisionByZeroExactlyOnZeroDivisor :=
  fun a b s => ⟨raises_divisionByZero_dividingAlu aluDiv a b s, raises_divisionByZero_dividingAlu aluMod a b s⟩

end Sys2Proof.Machine
end

section
/-! The interrupt line chosen (R173): the first of the lines enabled and pending, in the order of their numbers. -/

namespace Sys2Proof.Machine

/-! ### Enabled and pending lines as bits of R5 and R6 (R171, R172, D11) -/

theorem lineBit_eq_twoPow (i : Line) : lineBit i = BitVec.twoPow 8 i :=
  BitVec.eq_of_toNat_eq (by simp [lineBit, BitVec.toNat_twoPow])

theorem lineBit_ne_zero (i : Line) : lineBit i ≠ 0 := by
  revert i
  decide

/-- A byte masked with `lineBit i` is `lineBit i` where bit `i` is set, and 0 elsewhere. -/
theorem and_lineBit_ne_zero (x : Byte) (i : Line) : (x &&& lineBit i != 0) = x.getLsbD i := by
  rw [lineBit_eq_twoPow, BitVec.and_twoPow, ← lineBit_eq_twoPow]
  cases x.getLsbD i with
  | false => rfl
  | true => exact bne_iff_ne.mpr (lineBit_ne_zero i)

theorem State.enabled_eq_getLsbD (s : State) (i : Line) : s.enabled i = (s.reg 5).getLsbD i :=
  and_lineBit_ne_zero (s.reg 5) i

theorem State.pending_eq_getLsbD (s : State) (i : Line) : s.pending i = (s.reg 6).getLsbD i :=
  and_lineBit_ne_zero (s.reg 6) i

/-- Whether line `i` is in the deliverable set of R173. -/
theorem enabled_and_pending_iff {s : State} {i : Line} :
    (s.enabled i && s.pending i) = true ↔ (s.reg 5).getLsbD i = true ∧ (s.reg 6).getLsbD i = true := by
  rw [Bool.and_eq_true, State.enabled_eq_getLsbD, State.pending_eq_getLsbD]

/-! ### The choice -/

theorem chosenLine_of_servicing {s : State} (h : s.servicing = true) : chosenLine s = none := if_pos h

/-- The lines stand in `allLines` in the order of their numbers, so the first one found is the least. -/
theorem chosenLine_of_not_servicing {s : State} (h : s.servicing = false) :
    chosenLine s = Fin.find? fun i => s.enabled i && s.pending i := by
  have horder : allLines = List.finRange 8 := by decide
  rw [Fin.find?_eq_find?_finRange, ← horder]
  exact if_neg (Bool.eq_false_iff.mp h)

/-! ### The statement -/

/-- Settles O46: by the flag `servicing`; where it is clear, the choice is the search of the lines in their order, whose
two answers the library's lemmas on `Fin.find?` describe. -/
theorem chosenLineIsTheLeastDeliverable : Obligations.ChosenLineIsTheLeastDeliverable := by
  intro s
  cases h : s.servicing with
  | true => simp [chosenLine_of_servicing h]
  | false =>
    rw [chosenLine_of_not_servicing h]
    simp only [Fin.find?_eq_some_iff, Fin.find?_eq_none_iff, ← Bool.not_eq_true, enabled_and_pending_iff]
    simp [and_assoc]

end Sys2Proof.Machine
end

section
/-! Decode and encode (R50, R56, R58 to R60): the row of the opcode map behind each instruction, and the two directions
of their agreement. -/

namespace Sys2Proof

/-! ### From an instruction to its row -/

/-- Byte `k` of an instruction's encoding, 0 past its end. -/
def encodedByte (i : Instr) (k : Nat) : Byte := (encode i).getD k 0

theorem getElem_encode {i : Instr} {k : Nat} (h : k < (encode i).length) : (encode i)[k] = encodedByte i k := by
  simp [encodedByte, h]

/-- Every instruction is what the row of its opcode byte makes of its encoding. -/
theorem exists_row_of_encode (i : Instr) : ∃ row, lookupOpcode opcodeMap (encodedByte i 0) = some row ∧
    row.format.count + 1 = (encode i).length ∧ row.instr (encodedByte i) = i := by
  cases i <;> exact ⟨_, rfl, rfl, rfl⟩

/-- Where the encoding of an instruction stands, that instruction is decoded. -/
theorem decodeFrom_of_encode {byteAt : Nat → Option Byte} {i : Instr}
    (h : ∀ (k : Nat) (hk : k < (encode i).length), byteAt k = some (encode i)[k]) :
    decodeFrom opcodeMap byteAt = .ok i := by
  obtain ⟨row, hrow, hcount, hinstr⟩ := exists_row_of_encode i
  rw [decodeFrom_of_present hrow fun k hk => ?_, hinstr]
  rw [h k (by omega), getElem_encode]

/-! ### From the bytes to the instruction -/

/-- A byte has no row exactly where it is the opcode byte of none. -/
theorem lookupOpcode_eq_none {map : List OpcodeRow} {op : Byte} :
    lookupOpcode map op = none ↔ op ∉ map.map OpcodeRow.opcode := by
  simp [lookupOpcode]

/-- A decoding fails on an opcode byte without a row. -/
theorem decodeFrom_of_no_row {map : List OpcodeRow} {byteAt : Nat → Option Byte} {op : Byte}
    (h : byteAt 0 = some op) (hrow : lookupOpcode map op = none) :
    decodeFrom map byteAt = .error (.unrecognizedOpcode op) := by
  simp [decodeFrom, h, hrow]

/-- A decoding that succeeds found every byte of its row's count: the first one missing would make it fail. -/
theorem present_of_decodeFrom_eq_ok {map : List OpcodeRow} {byteAt : Nat → Option Byte} {row : OpcodeRow} {i : Instr}
    {op : Byte} (hop : byteAt 0 = some op) (hrow : lookupOpcode map op = some row) (h : decodeFrom map byteAt = .ok i) :
    ∀ k ≤ row.format.count, byteAt k = some ((byteAt k).getD 0) := by
  intro k hk
  cases hbyte : byteAt k with
  | some v => rfl
  | none =>
    have hmissing : ∃ j, byteAt j = none := ⟨k, hbyte⟩
    have hpos : 0 < Nat.find hmissing := (Nat.find_pos hmissing).mpr (by simp [hop])
    have hbefore : ∀ j < Nat.find hmissing, byteAt j = some ((byteAt j).getD 0) := fun j hj => by
      obtain ⟨v, hv⟩ := Option.ne_none_iff_exists'.mp (Nat.find_min hmissing hj)
      rw [hv, Option.getD_some]
    have hfails := decodeFrom_of_missing_operand (by rw [hop]; exact hrow) hpos
      ((Nat.find_min' hmissing hbyte).trans hk) hbefore (Nat.find_spec hmissing)
    cases h.symm.trans hfails

/-- A decoding that succeeds found a row for the opcode byte and the operand bytes of its count. -/
theorem decodeFrom_eq_ok {map : List OpcodeRow} {byteAt : Nat → Option Byte} {i : Instr}
    (h : decodeFrom map byteAt = .ok i) : ∃ (row : OpcodeRow) (b : Nat → Byte),
      lookupOpcode map (b 0) = some row ∧ (∀ k ≤ row.format.count, byteAt k = some (b k)) ∧ i = row.instr b := by
  cases hop : byteAt 0 with
  | none => cases (decodeFrom_of_no_opcode map hop).symm.trans h
  | some op =>
    cases hrow : lookupOpcode map op with
    | none => cases (decodeFrom_of_no_row hop hrow).symm.trans h
    | some row =>
      have hb0 : lookupOpcode map ((byteAt 0).getD 0) = some row := by rw [hop]; exact hrow
      have hall := present_of_decodeFrom_eq_ok hop hrow h
      exact ⟨row, _, hb0, hall, Except.ok.inj (h.symm.trans (decodeFrom_of_present hb0 hall))⟩

/-- The bytes that decode to an instruction begin with its encoding. -/
theorem encode_prefix_of_decode {bytes : List Byte} {i : Instr} (h : decode bytes = .ok i) : encode i <+: bytes := by
  obtain ⟨row, b, hrow, hbytes, rfl⟩ := decodeFrom_eq_ok h
  obtain ⟨hmem, hop⟩ := lookupOpcode_eq_some hrow
  rw [List.prefix_iff_getElem?]
  intro k hk
  have hk' := getElem?_encode_instr hmem hop k
  rw [List.getElem?_eq_getElem hk] at hk'
  split at hk'
  · rename_i hle
    rw [hbytes k hle, hk']
  · cases hk'

/-! ### The statements -/

/-- Settles O1: `decodeFrom_of_encode` on a list that begins with the encoding, and `encode_prefix_of_decode`. -/
theorem decodeAgreesWithEncode : Obligations.DecodeAgreesWithEncode := by
  refine ⟨fun i rest => decodeFrom_of_encode fun k hk => ?_, fun bytes i h => ?_⟩
  · rw [List.getElem?_append_left hk, List.getElem?_eq_getElem hk]
  · obtain ⟨rest, hrest⟩ := encode_prefix_of_decode h
    exact ⟨rest, hrest.symm⟩

/-- Settles O2: the decoder evaluates on each word. -/
theorem writtenOutWordsDecode : Obligations.WrittenOutWordsDecode :=
  ⟨rfl, rfl, rfl, rfl, rfl, rfl, rfl, rfl, rfl⟩

end Sys2Proof

namespace Sys2Proof.Machine

theorem fetchDecode_of_no_row {s : State} (hpc : s.pc < 256) (hrow : lookupOpcode opcodeMap (s.mem.read s.pc) = none) :
    fetchDecode s = .error (.unrecognizedOpcode (s.mem.read s.pc)) :=
  decodeFrom_of_no_row (byteAt?_of_lt hpc) hrow

/-- Settles O3: the 34 values are the opcode bytes of the map, row by row, and the decoder fails on any other. -/
theorem opcodesOutsideTheTableRaise : Obligations.OpcodesOutsideTheTableRaise := by
  rintro s op hpc rfl
  exact ⟨(lookupOpcode_eq_none (map := opcodeMap)).symm,
    fun hrow => fetchExecute_of_error (fetchDecode_of_no_row hpc hrow)⟩

end Sys2Proof.Machine
end
section
/-! The step (R71, R72): what it is where the run goes on, where a line is chosen, where the bytes at `pc` decode and
where they do not, and that every step keeps the invariant. -/

namespace Sys2Proof.Machine

/-! ### The cycle and the boundary, one equation for each case -/

theorem boundary_of_not_running {s : State} (h : s.running = false) : boundary s = s := by
  simp [boundary, h]

theorem boundary_of_no_schedule {s : State} (h : s.schedule = []) : boundary s = s := by
  simp [boundary, h]

theorem boundary_of_schedule {s : State} {es : List EnvStep} {rest : List (List EnvStep)} (hrun : s.running = true)
    (h : s.schedule = es :: rest) : boundary s = envSteps es (s.setSchedule rest) := by
  simp [boundary, hrun, h]

theorem cycle_of_chosen {s : State} {i : Line} (h : chosenLine s = some i) :
    cycle s = deliver i (timerCheck false s) := by
  simp [cycle, h]

theorem cycle_of_none {s : State} (h : chosenLine s = none) : cycle s = fetchExecute (timerCheck false s) := by
  simp [cycle, h]

theorem timerCheck_of_no_advance (d : Bool) {s : State} (h : s.tick = s.lastTick) : timerCheck d s = s := if_pos h

/-- The instruction at `pc` is executed after the timer check. -/
theorem step_of_fetchDecode {s : State} {i : Instr} (hs : s.Active) (hline : chosenLine s = none)
    (hfetch : fetchDecode s = .ok i) :
    step s = andThen (exec i (timerCheck false s)) fun t => .next (boundary t) := by
  rw [step_of_active hs, cycle_of_none hline, fetchExecute_of_ok ((fetchDecode_timerCheck _ _).trans hfetch)]

/-- An instruction leaves the schedule alone, so without one the boundary after it does nothing. -/
theorem exec_boundary_of_no_schedule {i : Instr} {s : State} (h : s.schedule = []) :
    andThen (exec i s) (fun t => .next (boundary t)) = exec i s := by
  cases hexec : exec i s with
  | next t =>
    obtain ⟨⟨-, -, -, hschedule⟩, -⟩ := exec_keeps hexec
    rw [andThen_next, boundary_of_no_schedule (hschedule.trans h)]
  | fault f => rfl
  | refused f => rfl

/-! ### Steps that run an instruction, deliver a line or find the run over -/

/-- Settles O5: `step_of_fetchDecode`, and what the timer check and the boundary leave alone. -/
theorem stepRunsTheDecodedInstruction : Obligations.StepRunsTheDecodedInstruction :=
  fun s _ hs hline hfetch => ⟨step_of_fetchDecode hs hline hfetch, timerCheck_pc false s, timerCheck_mem false s,
    timerCheck_of_no_advance false, fun _ => boundary_of_no_schedule⟩

/-- Settles O6: the encoding at `pc` decodes to the instruction, and neither the timer check nor the boundary does
anything. -/
theorem stepRunsTheEncodedInstruction : Obligations.StepRunsTheEncodedInstruction := by
  intro s i hs hline htick hschedule hbytes
  rw [step_of_fetchDecode hs hline (decodeFrom_of_encode hbytes), timerCheck_of_no_advance false htick,
    exec_boundary_of_no_schedule hschedule]

/-- Settles O7: the choice stands before the timer check, the delivery after it. -/
theorem stepDeliversTheChosenLine : Obligations.StepDeliversTheChosenLine := by
  intro s i hs hline
  rw [step_of_active hs, cycle_of_chosen hline]

theorem step_of_halted {s : State} (h : s.Halted) : step s = .next s := by
  simp [step, runLoopTurn, h.1, h.2]

theorem step_of_fault {s : State} {e : FatalError} (h : s.fault = some e) : step s = .fault (.raised e s) := by
  simp [step, runLoopTurn, h]

/-- Settles O8: a cycle is made only where the run is not over. -/
theorem endedRunsMakeNoFurtherCycle : Obligations.EndedRunsMakeNoFurtherCycle :=
  fun _ => ⟨step_of_halted, fun _ => step_of_fault⟩

/-! ### Steps that cannot decode -/

/-- Where the bytes at `pc` decode to nothing, the step raises after the timer check and does nothing else. -/
theorem step_of_fetchDecode_error {s : State} {e : DecodeError} (hs : s.Active) (hline : chosenLine s = none)
    (hfetch : fetchDecode s = .error e) : RaisesOnly (step s) (decodeFault e s) (timerCheck false s) := by
  have hraise := fetchExecute_of_error ((fetchDecode_timerCheck false s).trans hfetch)
  have hfault : decodeFault e (timerCheck false s) = decodeFault e s := by cases e <;> simp [decodeFault]
  rw [RaisesOnly, hfault] at hraise
  rw [RaisesOnly, step_of_active hs, cycle_of_none hline, hraise]
  rfl

/-- Settles O54: by which byte of the instruction fails, each time with `step_of_fetchDecode_error`. -/
theorem stepRaisesWhereDecodingFails : Obligations.StepRaisesWhereDecodingFails := by
  intro s hs hline
  refine ⟨fun e => step_of_fetchDecode_error hs hline, fun hpc => ?_, fun hpc hrow => ?_, fun row hpc hrow hpast => ?_⟩
  · exact step_of_fetchDecode_error hs hline (fetchDecode_of_pc_ge hpc)
  · exact step_of_fetchDecode_error hs hline (fetchDecode_of_no_row hpc hrow)
  · have hraise := step_of_fetchDecode_error hs hline (fetchDecode_of_operand_ge hpc hrow hpast)
    rwa [decodeFault, Nat.add_sub_of_le hpc.le] at hraise

/-! ### The invariant -/

/-- Settles O12: reset has empty memory, `pc` 0, equal ticks and no fault. -/
theorem invariantHoldsAtReset : Obligations.InvariantHoldsAtReset :=
  ⟨Memory.wf_nil, Nat.zero_le _, Nat.le_refl _, rfl⟩

/-- A cycle keeps the invariant: `pc` is a byte after a delivery, and at most three past an address after an
instruction. -/
theorem cycle_keeps_inv {s t : State} (hs : s.Inv) (h : cycle s = .next t) : t.Inv := by
  obtain ⟨hwf, -, hticks, hnofault⟩ := hs
  obtain ⟨-, -, -, -, hfault, htick, -, hlast⟩ := timerCheck_keeps Config.tickDeferred s
  have hlast := hlast hticks
  have hwf : (timerCheck Config.tickDeferred s).mem.wf := by rwa [timerCheck_mem]
  rcases cycle_cases h with ⟨i, -, hdeliver⟩ | ⟨-, i, hfetch, hexec⟩
  · obtain ⟨⟨hl, hf, ht, -⟩, -, -, -, -, hpc, hmem⟩ := deliver_keeps hdeliver
    exact ⟨hmem hwf, by simp only [Config.pcMax]; omega, by omega, by rw [hf, hfault, hnofault]⟩
  · obtain ⟨⟨hl, hf, ht, -⟩, hmem, hpc⟩ := exec_keeps hexec
    have := pc_lt_of_fetchDecode hfetch
    rw [timerCheck_pc] at hpc
    exact ⟨hmem hwf, by simp only [Config.pcMax]; omega, by omega, by rw [hf, hfault, hnofault]⟩

theorem boundary_keeps_inv {s : State} (h : s.Inv) : (boundary s).Inv := by
  obtain ⟨hwf, hpc, hticks, hnofault⟩ := h
  obtain ⟨hp, -, -, -, hf, hl, ht, hmem, -⟩ := boundary_keeps s
  exact ⟨hmem hwf, by rwa [hp], by omega, by rw [hf, hnofault]⟩

/-- Settles O13: a step is nothing, or a cycle and a boundary, and both keep the invariant. -/
theorem stepKeepsTheInvariant : Obligations.StepKeepsTheInvariant := by
  intro s t hs h
  rcases step_cases h with ⟨-, ⟨-, rfl⟩ | ⟨-, u, hcycle, rfl⟩⟩
  · exact hs
  · exact boundary_keeps_inv (cycle_keeps_inv hs hcycle)

end Sys2Proof.Machine
end

section
/-! Canonical memories (log 26) and the reset sequence (R23, R200): what a memory with consecutive bytes written reads
as, and the image loaded byte by byte. -/

namespace Sys2Proof.Machine

/-! ### A canonical memory is determined by what it reads as -/

theorem Memory.read_head (k : Nat) (w : Byte) (rest : Memory) : Memory.read ((k, w) :: rest) k = w := by
  rw [Memory.read_pair, if_pos rfl]

theorem Memory.head_ne_unlisted {k : Nat} {w : Byte} {rest : Memory} (h : Memory.wf ((k, w) :: rest)) :
    w ≠ Memory.unlisted := by
  obtain ⟨-, hcells⟩ := Memory.wf_iff.mp h
  exact (hcells (k, w) List.mem_cons_self).2

/-- The head of a canonical memory is the least address that does not read as an unlisted one. -/
theorem Memory.head_le_of_read_ne {k : Nat} {w : Byte} {rest : Memory} {addr : Nat} (h : Memory.wf ((k, w) :: rest))
    (hread : Memory.read ((k, w) :: rest) addr ≠ Memory.unlisted) : k ≤ addr := by
  by_contra hlt
  refine hread (Memory.read_of_below fun c hc => ?_)
  rcases List.mem_cons.mp hc with rfl | hc
  · exact Nat.not_le.mp hlt
  · exact (Nat.not_le.mp hlt).trans (Memory.wf_head h c hc)

/-- The memory behind the head reads as the whole does, but for the head's address, which it does not list. -/
theorem Memory.read_tail {k : Nat} {w : Byte} {rest : Memory} (h : Memory.wf ((k, w) :: rest)) (addr : Nat) :
    Memory.read rest addr = if addr = k then Memory.unlisted else Memory.read ((k, w) :: rest) addr := by
  by_cases hk : addr = k
  · rw [if_pos hk, hk, Memory.read_of_below (Memory.wf_head h)]
  · rw [if_neg hk, Memory.read_pair, if_neg (Ne.symm hk)]

/-- Settles O14: by induction on both lists; each head is the least address that does not read 0, so the heads agree. -/
theorem canonicalMemoryIsUnique : Obligations.CanonicalMemoryIsUnique := by
  intro m
  induction m with
  | nil =>
    intro n _ hn hread
    cases n with
    | nil => rfl
    | cons d rest =>
      obtain ⟨k, w⟩ := d
      exact absurd ((Memory.read_head k w rest).symm.trans (hread k).symm) (Memory.head_ne_unlisted hn)
  | cons c m ih =>
    obtain ⟨k, w⟩ := c
    intro n hm hn hread
    cases n with
    | nil => exact absurd ((Memory.read_head k w m).symm.trans (hread k)) (Memory.head_ne_unlisted hm)
    | cons d n =>
      obtain ⟨k', w'⟩ := d
      have hle : k ≤ k' := Memory.head_le_of_read_ne hm <| by
        rw [hread, Memory.read_head]
        exact Memory.head_ne_unlisted hn
      have hge : k' ≤ k := Memory.head_le_of_read_ne hn <| by
        rw [← hread, Memory.read_head]
        exact Memory.head_ne_unlisted hm
      obtain rfl := Nat.le_antisymm hle hge
      have hw : w = w' := by simpa only [Memory.read_head] using hread k
      have htail : m = n := ih n (Memory.wf_tail hm) (Memory.wf_tail hn) fun addr => by
        rw [Memory.read_tail hm, Memory.read_tail hn, hread]
      rw [hw, htail]

/-! ### Consecutive bytes written -/

/-- Addresses below and above the bytes written read as before. -/
theorem Memory.read_writeBytes_of_outside {vs : List Byte} {at_ addr : Nat} (m : Memory)
    (h : addr < at_ ∨ at_ + vs.length ≤ addr) : (m.writeBytes at_ vs).read addr = m.read addr := by
  induction vs generalizing m at_ with
  | nil => rfl
  | cons v vs ih =>
    rw [List.length_cons] at h
    rw [Memory.writeBytes, ih _ (by omega), Memory.read_write_of_ne m v (by omega)]

/-- The bytes written are read back in their order. -/
theorem Memory.read_writeBytes_getElem {vs : List Byte} {at_ k : Nat} {m : Memory} (hm : m.wf)
    (hfits : at_ + vs.length ≤ 256) (hk : k < vs.length) : (m.writeBytes at_ vs).read (at_ + k) = vs[k] := by
  induction vs generalizing m at_ k with
  | nil => cases hk
  | cons v vs ih =>
    rw [List.length_cons] at hfits
    have hm' : (m.write at_ v).wf := Memory.wf_write v hm (by omega)
    rw [Memory.writeBytes]
    cases k with
    | zero =>
      exact (Memory.read_writeBytes_of_outside _ (by omega)).trans (Memory.read_write_self hm at_ v)
    | succ k =>
      rw [show at_ + (k + 1) = at_ + 1 + k by omega, ih hm' (by omega) (Nat.lt_of_succ_lt_succ hk),
        List.getElem_cons_succ]

/-! ### The reset sequence -/

theorem loadFrom_of_fits {vs : List Byte} {addr : Nat} (s : State) (h : addr + vs.length ≤ 256) :
    loadFrom addr vs s = .next { s with mem := s.mem.writeBytes addr vs } := by
  induction vs generalizing addr s with
  | nil => rfl
  | cons v vs ih =>
    rw [List.length_cons] at h
    rw [loadFrom, memWrite_of_lt (by omega), andThen_next, ih _ (by omega)]
    rfl

/-- An image that reaches past 255 raises on the first address past it. -/
theorem loadFrom_of_too_long {vs : List Byte} {addr : Nat} (s : State) (haddr : addr ≤ 256)
    (h : 256 < addr + vs.length) : Raises (loadFrom addr vs s) (.outOfBoundsAccess 256) := by
  induction vs generalizing addr s with
  | nil => exact absurd h (Nat.not_lt.mpr haddr)
  | cons v vs ih =>
    rw [List.length_cons] at h
    obtain rfl | hlt := Nat.eq_or_lt_of_le haddr
    · rw [loadFrom, memWrite_of_ge (Nat.le_refl _), andThen_raise]
      exact raises_raise.mpr rfl
    · rw [loadFrom, memWrite_of_lt hlt, andThen_next]
      exact ih _ hlt (by omega)

/-- Settles O10: the fields of `State.reset`, each by evaluation. -/
theorem resetState : Obligations.ResetState :=
  ⟨by decide, rfl, rfl, fun _ => rfl, rfl, rfl, rfl, rfl, rfl, rfl, rfl⟩

/-- Settles O11: `loadFrom_of_fits` and `loadFrom_of_too_long` from address 0. -/
theorem powerOnLoadsTheImage : Obligations.PowerOnLoadsTheImage := by
  refine fun tick schedule image => ⟨fun hfits => ?_, fun hlong => ?_⟩
  · have hfits : 0 + image.length ≤ 256 := by omega
    refine ⟨Memory.writeBytes [] 0 image, loadFrom_of_fits _ hfits, Memory.wf_writeBytes image Memory.wf_nil hfits,
      fun k hk => ?_, fun k hk => Memory.read_writeBytes_of_outside [] (by omega)⟩
    simpa only [Nat.zero_add] using Memory.read_writeBytes_getElem Memory.wf_nil hfits hk
  · exact loadFrom_of_too_long _ (Nat.zero_le _) (by simpa using hlong)

end Sys2Proof.Machine
end

section
/-! What data, stack, control and output instructions do, exactly (R54, R111 to R115, R120 to R130, R143 to R146). -/

namespace Sys2Proof.Machine

/-! ### Operands that name no register (R54, R78) -/

/-- A single register operand of 8 or more raises. -/
theorem withReg_of_find? {a v : Byte} (s : State) (k : Reg → Result)
    (h : [a].find? (fun x => decide (8 ≤ x.toNat)) = some v) :
    withReg a s k = raise (.undefined .registerIndex v.toNat) s := by
  by_cases ha : 8 ≤ a.toNat
  · obtain rfl : a = v := by simpa [List.find?_cons, ha] using h
    exact withReg_of_ge ha s k
  · simp [ha] at h

/-- The first of two register operands that is 8 or more raises. -/
theorem withRegs_of_find? {a b v : Byte} (s : State) (k : Reg → Reg → Result)
    (h : [a, b].find? (fun x => decide (8 ≤ x.toNat)) = some v) :
    withRegs a b s k = raise (.undefined .registerIndex v.toNat) s := by
  by_cases ha : 8 ≤ a.toNat
  · exact withReg_of_find? s _ (by simpa [List.find?_cons, ha] using h)
  · rw [withRegs, withReg_of_lt (Nat.not_le.mp ha)]
    exact withReg_of_find? s _ (by simpa [List.find?_cons, ha] using h)

/-- Settles O21: an instruction checks its one or two register operands before it does anything else. -/
theorem operandsThatNameNoRegisterRaise : Obligations.OperandsThatNameNoRegisterRaise := by
  intro i s v h
  cases i with
  | add | sub | mul | div | mod | and | or | xor | shl | shr | cmp | ld | st =>
    simp only [exec, execAdd, execSub, execMul, execDiv, execMod, execAnd, execOr, execXor, execShl, execShr,
      binaryAlu, dividingAlu, execCmp, execLd, execSt]
    exact withRegs_of_find? s _ h
  | inc | dec | not | ldi | push | pop | jmp | jeq | jne | jgt | jge | jlt | jle | call | int | prn | pra =>
    simp only [exec, execInc, execDec, execNot, unaryAlu, execLdi, execPush, execPop, execJmp, execJeq, execJne,
      execJgt, execJge, execJlt, execJle, jumpIf, execCall, execInt, execPrn, execPra]
    exact withReg_of_find? s _ h
  | ret | iret | hlt | nop => cases h

/-! ### Data movement and stack instructions -/

theorem execLdi_regByte (ra : Reg) (n : Byte) (s : State) :
    execLdi (regByte ra) n s = .next ((s.setReg ra n).advance 3) :=
  withReg_regByte ra s _

theorem execLd_regByte (ra rb : Reg) (s : State) :
    execLd (regByte ra) (regByte rb) s = .next ((s.setReg ra (s.mem.read (s.reg rb).toNat)).advance 3) := by
  rw [execLd, withRegs_regByte, memRead_byte]

/-- Settles O30: the operand bytes name registers, and a register's byte is an address. -/
theorem loadsWriteTheirRegister : Obligations.LoadsWriteTheirRegister :=
  fun s ra rb n => ⟨execLdi_regByte ra n s, execLd_regByte ra rb s⟩

theorem execSt_regByte (ra rb : Reg) (s : State) :
    execSt (regByte ra) (regByte rb) s = .next ((s.setMem (s.reg ra).toNat (s.reg rb)).advance 3) := by
  rw [execSt, withRegs_regByte, memWrite_byte, andThen_next]

/-- The byte at `pc`, where it is a whole instruction, is the instruction fetched (R45). -/
theorem fetchDecode_of_one_byte {s : State} {i : Instr} {v : Byte} (hbyte : s.byteAt? s.pc = some v)
    (hencode : encode i = [v]) : fetchDecode s = .ok i := by
  refine decodeFrom_of_encode fun k hk => ?_
  obtain rfl : k = 0 := by simpa [hencode] using hk
  simpa [hencode] using hbyte

/-- Settles O31: one cell is written, and the next fetch of that cell reads it. -/
theorem storeWritesOneByte : Obligations.StoreWritesOneByte := by
  intro s ra rb hs
  obtain ⟨hwf, hself, hother⟩ := Memory.write_changes_one_cell hs (s.reg ra).isLt (s.reg rb)
  refine ⟨s.mem.write (s.reg ra).toNat (s.reg rb), execSt_regByte ra rb s, hwf, hself, hother, fun t ht => ?_⟩
  have hbyte : t.byteAt? (s.reg ra).toNat = some (s.reg rb) := by rw [byteAt?_of_lt (s.reg ra).isLt, ht, hself]
  exact ⟨hbyte, fun i hpc => fetchDecode_of_one_byte (by rw [hpc]; exact hbyte)⟩

theorem execPush_regByte (ra : Reg) (s : State) :
    execPush (regByte ra) s = andThen (push (s.reg ra) s) fun t => .next (t.advance 2) :=
  withReg_regByte ra s _

theorem execPush_of_room (ra : Reg) {s : State} (h : s.sp ≠ 0) : execPush (regByte ra) s =
    .next (((s.setReg 7 (s.sp - 1)).setMem (s.sp - 1).toNat (s.reg ra)).advance 2) := by
  rw [execPush_regByte, push_of_ne h, andThen_next]

/-- Settles O32: the push of the register's value, on each side of its test of SP. -/
theorem pushInstruction : Obligations.PushInstruction := by
  refine fun s ra hs => ⟨fun hroom => ?_, fun hempty => ?_⟩
  · exact ⟨_, execPush_of_room ra hroom, Memory.write_changes_one_cell hs (s.reg 7 - 1).isLt (s.reg ra)⟩
  · exact (execPush_regByte ra s).trans (by rw [push_of_zero hempty]; rfl)

theorem execPop_regByte (ra : Reg) (s : State) :
    execPop (regByte ra) s = pop s fun v t => .next ((t.setReg ra v).advance 2) :=
  withReg_regByte ra s _

/-- Settles O33: the pop into the register, on each side of its test of SP. -/
theorem popInstruction : Obligations.PopInstruction :=
  fun s ra => ⟨fun hbyte => (execPop_regByte ra s).trans (pop_of_lt _ hbyte),
    fun hempty => (execPop_regByte ra s).trans (pop_of_ge hempty)⟩

/-! ### Jumps -/

theorem takenEq_iff (fl : Byte) : takenEq fl = true ↔ fl = 1 := beq_iff_eq

theorem takenNe_iff (fl : Byte) : takenNe Config.jneRequiresRelation fl = true ↔ fl ≠ 1 := bne_iff_ne

theorem takenGt_iff (fl : Byte) : takenGt fl = true ↔ fl = 2 := beq_iff_eq

theorem takenGe_iff (fl : Byte) : takenGe fl = true ↔ fl = 2 ∨ fl = 1 := by simp [takenGe]

theorem takenLt_iff (fl : Byte) : takenLt fl = true ↔ fl = 4 := beq_iff_eq

theorem takenLe_iff (fl : Byte) : takenLe fl = true ↔ fl = 4 ∨ fl = 1 := by simp [takenLe]

/-- A jump places `pc` at the register's byte where its test holds, and past itself elsewhere. -/
theorem jumpIf_regByte {taken : Bool} {p : Prop} [Decidable p] (h : taken = true ↔ p) (r : Reg) (s : State) :
    jumpIf taken (regByte r) s = .next { s with pc := if p then (s.reg r).toNat else s.pc + 2 } := by
  rw [jumpIf, withReg_regByte]
  by_cases hp : p
  · rw [if_pos (h.mpr hp), if_pos hp]
    rfl
  · rw [if_neg (mt h.mp hp), if_neg hp]
    rfl

theorem execJmp_regByte (r : Reg) (s : State) : execJmp (regByte r) s = .next (s.setPc (s.reg r).toNat) := by
  rw [execJmp, jumpIf, withReg_regByte, if_pos rfl]

/-- Settles O34: all seven are `jumpIf`, each with its test of FL. -/
theorem jumpsPlaceThePc : Obligations.JumpsPlaceThePc :=
  fun s r => ⟨execJmp_regByte r s, jumpIf_regByte (takenEq_iff s.fl) r s, jumpIf_regByte (takenNe_iff s.fl) r s,
    jumpIf_regByte (takenGt_iff s.fl) r s, jumpIf_regByte (takenGe_iff s.fl) r s, jumpIf_regByte (takenLt_iff s.fl) r s,
    jumpIf_regByte (takenLe_iff s.fl) r s⟩

/-! ### CALL and RET -/

/-- The state after a CALL with room for the return address: SP moved, the address stored, then the target read. -/
def calledState (r : Reg) (s : State) : State :=
  ((s.setReg 7 (s.sp - 1)).setMem (s.sp - 1).toNat (BitVec.ofNat 8 (s.pc + 2))).setPc
    ((s.setReg 7 (s.sp - 1)).reg r).toNat

theorem execCall_of_room (r : Reg) {s : State} (hpc : s.pc + 2 < 256) (hroom : s.sp ≠ 0) :
    execCall (regByte r) s = .next (calledState r s) := by
  rw [execCall, withReg_regByte, if_neg (Nat.not_le.mpr hpc), push_of_ne hroom, andThen_next]
  rfl

theorem execCall_of_pc_ge (r : Reg) {s : State} (hpc : 256 ≤ s.pc + 2) :
    execCall (regByte r) s = raise (.undefined .pcNotByte (s.pc + 2)) s := by
  rw [execCall, withReg_regByte, if_pos hpc]

theorem execCall_of_zero (r : Reg) {s : State} (hpc : s.pc + 2 < 256) (hempty : s.sp = 0) :
    execCall (regByte r) s = raise .stackOverflow s := by
  rw [execCall, withReg_regByte, if_neg (Nat.not_le.mpr hpc), push_of_zero hempty, andThen_raise]

/-- A CALL that completes had a return address that is a byte, and room for it. -/
theorem execCall_eq_next {r : Reg} {s t : State} (h : execCall (regByte r) s = .next t) :
    s.pc + 2 < 256 ∧ s.sp ≠ 0 ∧ t = calledState r s := by
  have hpc : s.pc + 2 < 256 := Nat.not_le.mp fun hpc => raise_ne_next _ _ _ ((execCall_of_pc_ge r hpc).symm.trans h)
  have hroom : s.sp ≠ 0 := fun hz => raise_ne_next _ _ _ ((execCall_of_zero r hpc hz).symm.trans h)
  exact ⟨hpc, hroom, Host.Outcome.next.inj (h.symm.trans (execCall_of_room r hpc hroom))⟩

/-- Settles O35: by the test of the return address, then that of SP. -/
theorem callPushesTheReturnAddress : Obligations.CallPushesTheReturnAddress := by
  refine fun s r hs => ⟨fun hpc hroom => ?_, fun hpc => execCall_of_pc_ge r hpc, fun hpc => execCall_of_zero r hpc⟩
  obtain ⟨hwf, hself, hother⟩ := Memory.write_changes_one_cell hs (s.reg 7 - 1).isLt (BitVec.ofNat 8 (s.pc + 2))
  refine ⟨_, ?_, hwf, ?_, hother⟩
  · refine (execCall_of_room r hpc hroom).trans ?_
    rw [calledState, State.setReg_reg]
    rfl
  · rw [hself]
    exact Nat.mod_eq_of_lt hpc

theorem execRet_of_lt {s : State} (h : s.sp.toNat < 244) :
    execRet s = .next ((s.setReg 7 (s.sp + 1)).setPc (s.mem.read s.sp.toNat).toNat) :=
  pop_of_lt _ h

theorem execRet_of_ge {s : State} (h : 244 ≤ s.sp.toNat) : execRet s = raise .stackUnderflow s :=
  pop_of_ge h

/-- Settles O36: RET is a pop, on each side of its test of SP. -/
theorem retPopsThePc : Obligations.RetPopsThePc := fun _ => ⟨execRet_of_lt, execRet_of_ge⟩

/-- Settles O37: CALL leaves the return address on top of the stack, one below the SP it found. -/
theorem retReturnsPastTheCall : Obligations.RetReturnsPastTheCall := by
  intro s t u r hs hsp hcall huSp huTop
  obtain ⟨hpc, hroom, rfl⟩ := execCall_eq_next hcall
  have hpos : 0 < (s.reg 7).toNat := Nat.pos_of_ne_zero fun h => hroom (BitVec.eq_of_toNat_eq h)
  have hsp' : u.reg 7 = s.reg 7 - 1 := by simpa [calledState, State.sp_eq] using huSp
  have htop : u.mem.read (u.reg 7).toNat = BitVec.ofNat 8 (s.pc + 2) := by
    rw [huSp, huTop, ← huSp, hsp']
    exact Memory.read_write_self hs _ _
  have hret := execRet_of_lt (s := u) (by rw [State.sp_eq, hsp', sp_pred hpos]; omega)
  rw [State.sp_eq, htop, hsp', BitVec.sub_add_cancel, BitVec.toNat_ofNat, Nat.mod_eq_of_lt hpc] at hret
  exact hret

/-! ### Machine control and output -/

theorem execPrn_regByte (r : Reg) (s : State) :
    execPrn (regByte r) s = .next ((s.emit (.num (s.reg r))).advance 2) :=
  withReg_regByte r s _

theorem execPra_regByte (r : Reg) (s : State) :
    execPra (regByte r) s = .next ((s.emit (.chr (s.reg r))).advance 2) :=
  withReg_regByte r s _

/-- Settles O41: HLT and NOP have no operand, and the operand byte of PRN and PRA names a register. -/
theorem machineControlAndOutput : Obligations.MachineControlAndOutput :=
  fun s r => ⟨rfl, rfl, execPrn_regByte r s, execPra_regByte r s⟩

end Sys2Proof.Machine
end

section
/-! Frames: what the instructions that complete leave unchanged (R90, R110, R120, R140), in four classes, and how they
move `pc` (R77). -/

namespace Sys2Proof.Machine

/-! ### Where an instruction completes -/

/-- A register operand completes where it names a register and the rest completes. -/
theorem withReg_completes {a : Byte} {s t : State} {k : Reg → Result} (h : withReg a s k = .next t) :
    ∃ ra, a = regByte ra ∧ k ra = .next t := by
  obtain ⟨ha, h⟩ := withReg_eq_next.mp h
  exact ⟨_, eq_regByte ha, h⟩

theorem withRegs_completes {a b : Byte} {s t : State} {k : Reg → Reg → Result} (h : withRegs a b s k = .next t) :
    ∃ ra rb, a = regByte ra ∧ b = regByte rb ∧ k ra rb = .next t := by
  obtain ⟨ra, ha, h⟩ := withReg_completes h
  obtain ⟨rb, hb, h⟩ := withReg_completes h
  exact ⟨ra, rb, ha, hb, h⟩

/-- The next state `t` differs from `s` in the register named by `a`, and in `pc`, which is `n` further. -/
def RegisterWritten (a : Byte) (n : Nat) (s t : State) : Prop :=
  ∃ ra v, a = regByte ra ∧ t = (s.setReg ra v).advance n

theorem binaryAlu_writes {f : Byte → Byte → Byte} {a b : Byte} {s t : State} (h : binaryAlu f a b s = .next t) :
    RegisterWritten a 3 s t := by
  obtain ⟨ra, rb, ha, -, h⟩ := withRegs_completes h
  exact ⟨ra, _, ha, (Host.Outcome.next.inj h).symm⟩

theorem dividingAlu_completes {f : Byte → Byte → Byte} {a b : Byte} {s t : State} (h : dividingAlu f a b s = .next t) :
    ∃ ra rb, a = regByte ra ∧ b = regByte rb ∧ t = (s.setReg ra (f (s.reg ra) (s.reg rb))).advance 3 := by
  obtain ⟨ra, rb, ha, hb, h⟩ := withRegs_completes h
  split at h
  · exact absurd h (raise_ne_next _ _ _)
  · exact ⟨ra, rb, ha, hb, (Host.Outcome.next.inj h).symm⟩

theorem dividingAlu_writes {f : Byte → Byte → Byte} {a b : Byte} {s t : State} (h : dividingAlu f a b s = .next t) :
    RegisterWritten a 3 s t := by
  obtain ⟨ra, rb, ha, -, h⟩ := dividingAlu_completes h
  exact ⟨ra, _, ha, h⟩

theorem unaryAlu_writes {f : Byte → Byte} {a : Byte} {s t : State} (h : unaryAlu f a s = .next t) :
    RegisterWritten a 2 s t := by
  obtain ⟨ra, ha, h⟩ := withReg_completes h
  exact ⟨ra, _, ha, (Host.Outcome.next.inj h).symm⟩

theorem execLdi_writes {a b : Byte} {s t : State} (h : execLdi a b s = .next t) : RegisterWritten a 3 s t := by
  obtain ⟨ra, ha, h⟩ := withReg_completes h
  exact ⟨ra, b, ha, (Host.Outcome.next.inj h).symm⟩

theorem execLd_writes {a b : Byte} {s t : State} (h : execLd a b s = .next t) : RegisterWritten a 3 s t := by
  obtain ⟨ra, rb, ha, -, h⟩ := withRegs_completes h
  rw [memRead_byte] at h
  exact ⟨ra, _, ha, (Host.Outcome.next.inj h).symm⟩

/-- A completed CMP writes FL. -/
theorem execCmp_completes {a b : Byte} {s t : State} (h : execCmp a b s = .next t) :
    ∃ ra rb, t = (s.setFl (compareFlags (s.reg ra) (s.reg rb))).advance 3 := by
  obtain ⟨ra, rb, -, -, h⟩ := withRegs_completes h
  exact ⟨ra, rb, (Host.Outcome.next.inj h).symm⟩

/-- A completed jump, taken or not, writes `pc`. -/
theorem jumpIf_completes {taken : Bool} {a : Byte} {s t : State} (h : jumpIf taken a s = .next t) :
    ∃ n, t = s.setPc n := by
  obtain ⟨ra, -, h⟩ := withReg_completes h
  refine ⟨if taken then (s.reg ra).toNat else s.pc + 2, ?_⟩
  rw [← Host.Outcome.next.inj h, apply_ite s.setPc]
  rfl

theorem execPrn_completes {a : Byte} {s t : State} (h : execPrn a s = .next t) :
    ∃ e, t = (s.emit e).advance 2 := by
  obtain ⟨ra, -, h⟩ := withReg_completes h
  exact ⟨_, (Host.Outcome.next.inj h).symm⟩

theorem execPra_completes {a : Byte} {s t : State} (h : execPra a s = .next t) :
    ∃ e, t = (s.emit e).advance 2 := by
  obtain ⟨ra, -, h⟩ := withReg_completes h
  exact ⟨_, (Host.Outcome.next.inj h).symm⟩

theorem execSt_completes {a b : Byte} {s t : State} (h : execSt a b s = .next t) :
    ∃ ra v, a = regByte ra ∧ t = (s.setMem (s.reg ra).toNat v).advance 3 := by
  obtain ⟨ra, rb, ha, -, h⟩ := withRegs_completes h
  rw [memWrite_byte, andThen_next] at h
  exact ⟨ra, _, ha, (Host.Outcome.next.inj h).symm⟩

theorem execPush_completes {a : Byte} {s t : State} (h : execPush a s = .next t) :
    ∃ v, t = ((s.setReg 7 (s.sp - 1)).setMem (s.sp - 1).toNat v).advance 2 := by
  obtain ⟨ra, -, h⟩ := withReg_completes h
  obtain ⟨u, hu, h⟩ := andThen_eq_next.mp h
  obtain ⟨-, rfl⟩ := push_eq_next.mp hu
  exact ⟨_, (Host.Outcome.next.inj h).symm⟩

theorem execCall_completes {a : Byte} {s t : State} (h : execCall a s = .next t) :
    ∃ v n, t = ((s.setReg 7 (s.sp - 1)).setMem (s.sp - 1).toNat v).setPc n := by
  obtain ⟨r, rfl, -⟩ := withReg_completes h
  obtain ⟨-, -, rfl⟩ := execCall_eq_next h
  exact ⟨_, _, rfl⟩

theorem execPop_completes {a : Byte} {s t : State} (h : execPop a s = .next t) :
    ∃ ra v, a = regByte ra ∧ t = ((s.setReg 7 (s.sp + 1)).setReg ra v).advance 2 := by
  obtain ⟨ra, ha, h⟩ := withReg_completes h
  obtain ⟨-, h⟩ := pop_eq_next.mp h
  exact ⟨ra, _, ha, (Host.Outcome.next.inj h).symm⟩

theorem execRet_completes {s t : State} (h : execRet s = .next t) : ∃ n, t = (s.setReg 7 (s.sp + 1)).setPc n := by
  obtain ⟨-, h⟩ := pop_eq_next.mp h
  exact ⟨_, (Host.Outcome.next.inj h).symm⟩

theorem execInt_completes {a : Byte} {s t : State} (h : execInt a s = .next t) :
    ∃ i, t = (setPending i s).advance 2 := by
  obtain ⟨ra, -, h⟩ := withReg_completes h
  simp only at h
  split at h
  · exact ⟨_, (Host.Outcome.next.inj h).symm⟩
  · exact absurd h (raise_ne_next _ _ _)

theorem returnFromInterrupt_completes {s t : State} (h : returnFromInterrupt s = .next t) :
    ∃ regs fl n, t = { s with regs := regs, fl := fl, pc := n, servicing := false } := by
  obtain ⟨u, hu, h⟩ := andThen_eq_next.mp h
  obtain ⟨-, h⟩ := pop_eq_next.mp h
  obtain ⟨-, h⟩ := pop_eq_next.mp h
  rw [popRegs_eq_next hu] at h
  exact ⟨_, _, _, (Host.Outcome.next.inj h).symm⟩

/-! ### Frames of the updates -/

theorem sameRegsExcept_setReg (s : State) (r : Reg) (v : Byte) : SameRegsExcept [r] s (s.setReg r v) :=
  fun q hq => by rw [State.setReg_reg, if_neg (by simpa using hq)]

theorem SameRegsExcept.setReg {rs : List Reg} {s t : State} (h : SameRegsExcept rs s t) (r : Reg) (v : Byte) :
    SameRegsExcept (r :: rs) s (t.setReg r v) := fun q hq => by
  obtain ⟨hqr, hq⟩ := not_or.mp (mt List.mem_cons.mpr hq)
  rw [State.setReg_reg, if_neg hqr, h q hq]

theorem sameMemoryExcept_setMem (s : State) (addr : Nat) (v : Byte) : SameMemoryExcept addr s (s.setMem addr v) :=
  fun _ hb => Memory.read_write_of_ne s.mem v hb

/-! ### The four classes of instructions -/

/-- The instructions that write one register, which operand `a` names. -/
def registerInstrs (a b : Byte) : List Instr :=
  [.add a b, .sub a b, .mul a b, .div a b, .mod a b, .and a b, .or a b, .xor a b, .shl a b, .shr a b, .inc a,
    .dec a, .not a, .ldi a b, .ld a b]

/-- The instructions that write neither a register nor memory. -/
def noRegisterInstrs (a b : Byte) : List Instr :=
  [.cmp a b, .jmp a, .jeq a, .jne a, .jgt a, .jge a, .jlt a, .jle a, .hlt, .nop, .prn a, .pra a]

/-- The instructions that store a byte. -/
def storingInstrs (a b : Byte) : List Instr := [.st a b, .push a, .call a]

/-- The instructions that pop, and INT. -/
def poppingInstrs (a : Byte) : List Instr := [.pop a, .ret, .iret, .int a]

/-- Every instruction is in one of the four classes. -/
theorem instr_class (i : Instr) : ∃ a b, i ∈ registerInstrs a b ∨ i ∈ noRegisterInstrs a b ∨ i ∈ storingInstrs a b ∨
    i ∈ poppingInstrs a := by
  cases i with
  | add a b | sub a b | mul a b | div a b | mod a b | and a b | or a b | xor a b | shl a b | shr a b | ldi a b
  | ld a b => exact ⟨a, b, .inl (by simp [registerInstrs])⟩
  | inc a | dec a | not a => exact ⟨a, 0, .inl (by simp [registerInstrs])⟩
  | cmp a b => exact ⟨a, b, .inr (.inl (by simp [noRegisterInstrs]))⟩
  | jmp a | jeq a | jne a | jgt a | jge a | jlt a | jle a | prn a | pra a =>
    exact ⟨a, 0, .inr (.inl (by simp [noRegisterInstrs]))⟩
  | hlt | nop => exact ⟨0, 0, .inr (.inl (by simp [noRegisterInstrs]))⟩
  | st a b => exact ⟨a, b, .inr (.inr (.inl (by simp [storingInstrs])))⟩
  | push a | call a => exact ⟨a, 0, .inr (.inr (.inl (by simp [storingInstrs])))⟩
  | pop a | int a => exact ⟨a, 0, .inr (.inr (.inr (by simp [poppingInstrs])))⟩
  | ret | iret => exact ⟨0, 0, .inr (.inr (.inr (by simp [poppingInstrs])))⟩

/-! ### Instructions that write one register -/

theorem exec_writes_register {a b : Byte} {i : Instr} {s t : State} (hi : i ∈ registerInstrs a b)
    (h : exec i s = .next t) : RegisterWritten a (i.operandCount + 1) s t := by
  simp only [registerInstrs, List.mem_cons, List.not_mem_nil, or_false] at hi
  rcases hi with rfl | rfl | rfl | rfl | rfl | rfl | rfl | rfl | rfl | rfl | rfl | rfl | rfl | rfl | rfl
  exacts [binaryAlu_writes h, binaryAlu_writes h, binaryAlu_writes h, dividingAlu_writes h, dividingAlu_writes h,
    binaryAlu_writes h, binaryAlu_writes h, binaryAlu_writes h, binaryAlu_writes h, binaryAlu_writes h,
    unaryAlu_writes h, unaryAlu_writes h, unaryAlu_writes h, execLdi_writes h, execLd_writes h]

/-- Settles O42: each of the 15 writes a register and advances `pc`, and nothing else. -/
theorem registerInstructionsFrame : Obligations.RegisterInstructionsFrame := by
  intro a b s t i hi h
  obtain ⟨ra, v, ha, rfl⟩ := exec_writes_register hi h
  exact ⟨ra, ha, sameRegsExcept_setReg s ra v, rfl, ⟨rfl, rfl, rfl, rfl, rfl, rfl, rfl⟩, fun _ => rfl⟩

/-! ### Instructions that write no register -/

/-- The frame of an instruction that writes no register: what FL, `running` and `out` may do depends on it. -/
def NoRegisterFrame (a b : Byte) (i : Instr) (s t : State) : Prop :=
  SameRegsExcept [] s t ∧ SameMemory s t ∧ SameHidden s t ∧ t.servicing = s.servicing ∧
    (i ≠ .cmp a b → t.fl = s.fl) ∧ (i ≠ .hlt → t.running = s.running) ∧ (i ≠ .prn a → i ≠ .pra a → t.out = s.out)

theorem noRegisterFrame_setPc (a b : Byte) (i : Instr) (s : State) (n : Nat) : NoRegisterFrame a b i s (s.setPc n) :=
  ⟨fun _ _ => rfl, fun _ => rfl, ⟨rfl, rfl, rfl, rfl⟩, rfl, fun _ => rfl, fun _ => rfl, fun _ _ => rfl⟩

theorem noRegisterFrame_jump {taken : Bool} {a : Byte} {s t : State} (b : Byte) (i : Instr)
    (h : jumpIf taken a s = .next t) : NoRegisterFrame a b i s t := by
  obtain ⟨n, rfl⟩ := jumpIf_completes h
  exact noRegisterFrame_setPc a b i s n

theorem noRegisterFrame_cmp {a b : Byte} {s t : State} (h : execCmp a b s = .next t) :
    NoRegisterFrame a b (.cmp a b) s t := by
  obtain ⟨ra, rb, rfl⟩ := execCmp_completes h
  exact ⟨fun _ _ => rfl, fun _ => rfl, ⟨rfl, rfl, rfl, rfl⟩, rfl, absurd rfl, fun _ => rfl, fun _ _ => rfl⟩

theorem noRegisterFrame_hlt {a b : Byte} {s t : State} (h : execHlt s = .next t) : NoRegisterFrame a b .hlt s t := by
  cases h
  exact ⟨fun _ _ => rfl, fun _ => rfl, ⟨rfl, rfl, rfl, rfl⟩, rfl, fun _ => rfl, absurd rfl, fun _ _ => rfl⟩

theorem noRegisterFrame_nop {a b : Byte} {s t : State} (h : execNop s = .next t) : NoRegisterFrame a b .nop s t := by
  cases h
  exact noRegisterFrame_setPc a b .nop s _

theorem noRegisterFrame_prn {a b : Byte} {s t : State} (h : execPrn a s = .next t) :
    NoRegisterFrame a b (.prn a) s t := by
  obtain ⟨e, rfl⟩ := execPrn_completes h
  exact ⟨fun _ _ => rfl, fun _ => rfl, ⟨rfl, rfl, rfl, rfl⟩, rfl, fun _ => rfl, fun _ => rfl, absurd rfl⟩

theorem noRegisterFrame_pra {a b : Byte} {s t : State} (h : execPra a s = .next t) :
    NoRegisterFrame a b (.pra a) s t := by
  obtain ⟨e, rfl⟩ := execPra_completes h
  exact ⟨fun _ _ => rfl, fun _ => rfl, ⟨rfl, rfl, rfl, rfl⟩, rfl, fun _ => rfl, fun _ => rfl, fun _ => absurd rfl⟩

/-- Settles O43: the frame of each of the 12, the seven jumps alike. -/
theorem noRegisterInstructionsFrame : Obligations.NoRegisterInstructionsFrame := by
  intro a b s t i hi h
  simp only [List.mem_cons, List.not_mem_nil, or_false] at hi
  rcases hi with rfl | rfl | rfl | rfl | rfl | rfl | rfl | rfl | rfl | rfl | rfl | rfl
  exacts [noRegisterFrame_cmp h, noRegisterFrame_jump b _ h, noRegisterFrame_jump b _ h, noRegisterFrame_jump b _ h,
    noRegisterFrame_jump b _ h, noRegisterFrame_jump b _ h, noRegisterFrame_jump b _ h, noRegisterFrame_jump b _ h,
    noRegisterFrame_hlt h, noRegisterFrame_nop h, noRegisterFrame_prn h, noRegisterFrame_pra h]

/-! ### Instructions that store, and instructions that pop -/

/-- Settles O44: the cell each of the three stores to, and SP for PUSH and CALL. -/
theorem storingInstructionsFrame : Obligations.StoringInstructionsFrame := by
  refine fun a b s t => ⟨fun h => ?st, fun i hi h => ?_⟩
  case st =>
    obtain ⟨ra, v, ha, rfl⟩ := execSt_completes h
    exact ⟨ra, ha, fun _ _ => rfl, sameMemoryExcept_setMem s _ v, rfl, rfl, rfl, rfl, rfl, rfl, rfl, rfl⟩
  simp only [List.mem_cons, List.not_mem_nil, or_false] at hi
  rcases hi with rfl | rfl
  · obtain ⟨v, rfl⟩ := execPush_completes h
    exact ⟨sameRegsExcept_setReg s 7 _, sameMemoryExcept_setMem _ _ v, rfl, rfl, rfl, rfl, rfl, rfl, rfl, rfl⟩
  · obtain ⟨v, n, rfl⟩ := execCall_completes h
    exact ⟨sameRegsExcept_setReg s 7 _, sameMemoryExcept_setMem _ _ v, rfl, rfl, rfl, rfl, rfl, rfl, rfl, rfl⟩

/-- Settles O45: POP, RET and IRET move SP and write what they pop, INT writes the pending mask. -/
theorem poppingInstructionsFrame : Obligations.PoppingInstructionsFrame := by
  refine fun a s t => ⟨fun h => ?pop, fun h => ?ret, fun h => ?iret, fun h => ?int⟩
  case pop =>
    obtain ⟨ra, v, ha, rfl⟩ := execPop_completes h
    exact ⟨ra, ha, (sameRegsExcept_setReg s 7 _).setReg ra v, rfl, ⟨rfl, rfl, rfl, rfl, rfl, rfl, rfl⟩, fun _ => rfl⟩
  case ret =>
    obtain ⟨n, rfl⟩ := execRet_completes h
    exact ⟨sameRegsExcept_setReg s 7 _, rfl, ⟨rfl, rfl, rfl, rfl, rfl, rfl, rfl⟩, fun _ => rfl⟩
  case iret =>
    obtain ⟨regs, fl, n, rfl⟩ := returnFromInterrupt_completes h
    exact ⟨fun _ => rfl, ⟨rfl, rfl, rfl, rfl⟩, rfl, rfl⟩
  case int =>
    obtain ⟨i, rfl⟩ := execInt_completes h
    exact ⟨sameRegsExcept_setReg s 6 _, rfl, ⟨rfl, rfl, rfl, rfl, rfl, rfl, rfl⟩, fun _ => rfl⟩

/-! ### How `pc` moves -/

/-- Past an ALU or DataOrStack instruction that completes `pc` is one past the last operand byte (R77). -/
theorem exec_pc {i : Instr} {s t : State} (h : exec i s = .next t) (hi : i.category ≠ .controlFlow) :
    t.pc = s.pc + i.operandCount + 1 := by
  cases i with
  | add | sub | mul | and | or | xor | shl | shr => obtain ⟨_, _, -, rfl⟩ := binaryAlu_writes h; rfl
  | div | mod => obtain ⟨_, _, -, rfl⟩ := dividingAlu_writes h; rfl
  | inc | dec | not => obtain ⟨_, _, -, rfl⟩ := unaryAlu_writes h; rfl
  | cmp => obtain ⟨_, _, rfl⟩ := execCmp_completes h; rfl
  | ldi => obtain ⟨_, _, -, rfl⟩ := execLdi_writes h; rfl
  | ld => obtain ⟨_, _, -, rfl⟩ := execLd_writes h; rfl
  | st => obtain ⟨_, _, -, rfl⟩ := execSt_completes h; rfl
  | push => obtain ⟨_, rfl⟩ := execPush_completes h; rfl
  | pop => obtain ⟨_, _, -, rfl⟩ := execPop_completes h; rfl
  | prn => obtain ⟨_, rfl⟩ := execPrn_completes h; rfl
  | pra => obtain ⟨_, rfl⟩ := execPra_completes h; rfl
  | hlt | nop => cases h; rfl
  | jmp | jeq | jne | jgt | jge | jlt | jle | call | ret | int | iret => exact absurd rfl hi

/-- Settles O22: `exec_pc`, and what INT does. -/
theorem pcAdvancesPastTheInstruction : Obligations.PcAdvancesPastTheInstruction := by
  refine fun i s t h => ⟨exec_pc h, ?_⟩
  rintro a rfl
  obtain ⟨i, rfl⟩ := execInt_completes h
  rfl

end Sys2Proof.Machine
end

section
/-! Rules of the whole machine: who writes FL, `out`, memory and `running` (R14, R16, R18, R20), and the laws of
CMP and of division (R95, R104). -/

namespace Sys2Proof.Machine

/-! ### What one instruction may write, by its class -/

theorem exec_storing_frame {a b : Byte} {i : Instr} {s t : State} (hi : i ∈ storingInstrs a b)
    (h : exec i s = .next t) : t.fl = s.fl ∧ SameControl s t := by
  obtain ⟨hst, hpushCall⟩ := storingInstructionsFrame a b s t
  rcases List.mem_cons.mp hi with rfl | hi
  · obtain ⟨_, -, -, -, hfl, hcontrol⟩ := hst h
    exact ⟨hfl, hcontrol⟩
  · obtain ⟨-, -, hfl, hcontrol⟩ := hpushCall i hi h
    exact ⟨hfl, hcontrol⟩

theorem exec_popping_frame {a : Byte} {i : Instr} {s t : State} (hi : i ∈ poppingInstrs a) (h : exec i s = .next t) :
    SameMemory s t ∧ t.running = s.running ∧ t.out = s.out ∧ (i ≠ .iret → t.fl = s.fl) := by
  obtain ⟨hpop, hret, hiret, hint⟩ := poppingInstructionsFrame a s t
  simp only [poppingInstrs, List.mem_cons, List.not_mem_nil, or_false] at hi
  rcases hi with rfl | rfl | rfl | rfl
  · obtain ⟨_, -, -, hfl, ⟨-, hrun, hout, -⟩, hmem⟩ := hpop h
    exact ⟨hmem, hrun, hout, fun _ => hfl⟩
  · obtain ⟨-, hfl, ⟨-, hrun, hout, -⟩, hmem⟩ := hret h
    exact ⟨hmem, hrun, hout, fun _ => hfl⟩
  · obtain ⟨hmem, -, hrun, hout⟩ := hiret h
    exact ⟨hmem, hrun, hout, absurd rfl⟩
  · obtain ⟨-, hfl, ⟨-, hrun, hout, -⟩, hmem⟩ := hint h
    exact ⟨hmem, hrun, hout, fun _ => hfl⟩

/-- FL is written by CMP and IRET only. -/
theorem exec_fl {i : Instr} {s t : State} (h : exec i s = .next t) :
    t.fl = s.fl ∨ i = .iret ∨ ∃ a b, i = .cmp a b := by
  obtain ⟨a, b, hi | hi | hi | hi⟩ := instr_class i
  · obtain ⟨_, _, -, rfl⟩ := exec_writes_register hi h
    exact .inl rfl
  · obtain ⟨-, -, -, -, hfl, -⟩ := noRegisterInstructionsFrame a b s t i hi h
    by_cases hcmp : i = .cmp a b
    · exact .inr (.inr ⟨a, b, hcmp⟩)
    · exact .inl (hfl hcmp)
  · exact .inl (exec_storing_frame hi h).1
  · obtain ⟨-, -, -, hfl⟩ := exec_popping_frame hi h
    by_cases hiret : i = .iret
    · exact .inr (.inl hiret)
    · exact .inl (hfl hiret)

/-- PRN and PRA append one event to the output, no other instruction touches it. -/
theorem exec_out {i : Instr} {s t : State} (h : exec i s = .next t) : t.out = s.out ∨ ∃ e, t.out = s.out ++ [e] := by
  obtain ⟨a, b, hi | hi | hi | hi⟩ := instr_class i
  · obtain ⟨_, _, -, rfl⟩ := exec_writes_register hi h
    exact .inl rfl
  · obtain ⟨-, -, -, -, -, -, hout⟩ := noRegisterInstructionsFrame a b s t i hi h
    by_cases hprn : i = .prn a
    · subst hprn
      obtain ⟨e, rfl⟩ := execPrn_completes h
      exact .inr ⟨e, rfl⟩
    by_cases hpra : i = .pra a
    · subst hpra
      obtain ⟨e, rfl⟩ := execPra_completes h
      exact .inr ⟨e, rfl⟩
    exact .inl (hout hprn hpra)
  · obtain ⟨-, -, -, hout, -⟩ := exec_storing_frame hi h
    exact .inl hout
  · obtain ⟨-, -, hout, -⟩ := exec_popping_frame hi h
    exact .inl hout

/-- Memory is written by ST, PUSH and CALL only. -/
theorem exec_memory {i : Instr} {s t : State} (h : exec i s = .next t) :
    SameMemory s t ∨ (∃ a b, i = .st a b) ∨ (∃ a, i = .push a) ∨ ∃ a, i = .call a := by
  obtain ⟨a, b, hi | hi | hi | hi⟩ := instr_class i
  · obtain ⟨_, _, -, rfl⟩ := exec_writes_register hi h
    exact .inl fun _ => rfl
  · obtain ⟨-, hmem, -⟩ := noRegisterInstructionsFrame a b s t i hi h
    exact .inl hmem
  · simp only [storingInstrs, List.mem_cons, List.not_mem_nil, or_false] at hi
    rcases hi with rfl | rfl | rfl
    exacts [.inr (.inl ⟨a, b, rfl⟩), .inr (.inr (.inl ⟨a, rfl⟩)), .inr (.inr (.inr ⟨a, rfl⟩))]
  · exact .inl (exec_popping_frame hi h).1

theorem exec_running_of_ne_hlt {i : Instr} {s t : State} (h : exec i s = .next t) (hi : i ≠ .hlt) :
    t.running = s.running := by
  obtain ⟨a, b, hc | hc | hc | hc⟩ := instr_class i
  · obtain ⟨_, _, -, rfl⟩ := exec_writes_register hc h
    rfl
  · obtain ⟨-, -, -, -, -, hrun, -⟩ := noRegisterInstructionsFrame a b s t i hc h
    exact hrun hi
  · obtain ⟨-, -, hrun, -⟩ := exec_storing_frame hc h
    exact hrun
  · obtain ⟨-, hrun, -⟩ := exec_popping_frame hc h
    exact hrun

/-- HLT clears `running`, every other instruction leaves it. -/
theorem exec_running {i : Instr} {s t : State} (h : exec i s = .next t) : t.running = (s.running && i != .hlt) := by
  by_cases hi : i = .hlt
  · subst hi
    cases h
    exact (Bool.and_false _).symm
  · rw [exec_running_of_ne_hlt h hi, bne_iff_ne.mpr hi, Bool.and_true]

/-! ### The rules, step by step -/

/-- What a running machine's step did: a delivery or one instruction after the timer check, and the boundary. -/
theorem step_effect {s t : State} (hs : s.Active) (h : step s = .next t) :
    (∃ i u, chosenLine s = some i ∧ deliver i (timerCheck Config.tickDeferred s) = .next u ∧ t = boundary u) ∨
      (∃ i u, chosenLine s = none ∧ fetchDecode s = .ok i ∧ exec i (timerCheck Config.tickDeferred s) = .next u ∧
        t = boundary u) := by
  rw [step_of_active hs] at h
  obtain ⟨u, hu, hb⟩ := andThen_eq_next.mp h
  have ht : t = boundary u := (Host.Outcome.next.inj hb).symm
  rcases cycle_cases hu with ⟨i, hline, hdeliver⟩ | ⟨hline, i, hfetch, hexec⟩
  · exact .inl ⟨i, u, hline, hdeliver, ht⟩
  · exact .inr ⟨i, u, hline, hfetch, hexec, ht⟩

/-- Settles O15: the timer check, a delivery and the boundary leave the output alone, and an instruction is
`exec_out`. -/
theorem outputOnlyGrows : Obligations.OutputOnlyGrows := by
  intro s t h
  obtain ⟨-, ⟨-, rfl⟩ | ⟨hs, -⟩⟩ := step_cases h
  · exact .inl rfl
  obtain ⟨-, -, -, htimer, -⟩ := timerCheck_keeps Config.tickDeferred s
  rcases step_effect hs h with ⟨i, u, -, hdeliver, rfl⟩ | ⟨i, u, -, -, hexec, rfl⟩
  · obtain ⟨-, -, -, hboundary, -⟩ := boundary_keeps u
    obtain ⟨-, -, hout, -⟩ := deliver_keeps hdeliver
    exact .inl (by rw [hboundary, hout, htimer])
  · obtain ⟨-, -, -, hboundary, -⟩ := boundary_keeps u
    rw [hboundary, ← htimer]
    exact exec_out hexec

/-- Settles O17: the timer check, a delivery and the boundary leave FL alone, and an instruction is `exec_fl`. -/
theorem flagsChangeOnlyByCmpAndIret : Obligations.FlagsChangeOnlyByCmpAndIret := by
  intro s t hs h hne
  obtain ⟨htimer, -⟩ := timerCheck_keeps Config.tickDeferred s
  rcases step_effect hs h with ⟨i, u, -, hdeliver, rfl⟩ | ⟨i, u, hline, hfetch, hexec, rfl⟩
  · obtain ⟨-, hboundary, -⟩ := boundary_keeps u
    obtain ⟨-, -, -, hfl, -⟩ := deliver_keeps hdeliver
    exact absurd (by rw [hboundary, hfl, htimer]) hne
  · obtain ⟨-, hboundary, -⟩ := boundary_keeps u
    rw [hboundary, ← htimer] at hne
    exact ⟨hline, i, hfetch, (exec_fl hexec).resolve_left hne⟩

/-- Settles O18: without environment steps the boundary does nothing, and an instruction is `exec_memory`. -/
theorem memoryChangesOnlyByStoresAndPushes : Obligations.MemoryChangesOnlyByStoresAndPushes := by
  intro s t hs hschedule h hne
  obtain ⟨-, -, -, -, -, -, htimer, -⟩ := timerCheck_keeps Config.tickDeferred s
  rcases step_effect hs h with ⟨i, u, hline, -⟩ | ⟨i, u, -, hfetch, hexec, rfl⟩
  · exact .inl (by rw [hline]; exact Option.some_ne_none i)
  · obtain ⟨⟨-, -, -, hexecSchedule⟩, -⟩ := exec_keeps hexec
    rw [boundary_of_no_schedule (by rw [hexecSchedule, htimer, hschedule])] at hne
    refine .inr ⟨i, hfetch, (exec_memory hexec).resolve_left fun hsame => hne fun addr => ?_⟩
    rw [hsame addr, timerCheck_mem]

/-- Settles O20: `exec_running`, and a step of a machine that is not running is no cycle. -/
theorem runningIsClearedForGood : Obligations.RunningIsClearedForGood := by
  refine ⟨fun _ _ _ => exec_running, fun _ => rfl, fun s t h hrun => ?_, fun s t h hrun => ?_⟩ <;>
    obtain ⟨-, ⟨hhalted, rfl⟩ | ⟨⟨-, hactive⟩, -⟩⟩ := step_cases h
  · exact hrun
  · exact hactive
  · rfl
  · cases hactive.symm.trans hrun

/-! ### Flags and division -/

theorem compareFlags_mem (p q : Byte) : compareFlags p q = 1 ∨ compareFlags p q = 2 ∨ compareFlags p q = 4 := by
  unfold compareFlags
  split
  · exact .inl rfl
  · split
    · exact .inr (.inl rfl)
    · exact .inr (.inr rfl)

/-- The division law (R95), also for a zero divisor. -/
theorem aluDiv_mul_add_aluMod (p q : Byte) : (aluDiv p q).toNat * q.toNat + (aluMod p q).toNat = p.toNat := by
  rw [aluDiv, aluMod, BitVec.toNat_udiv, BitVec.toNat_umod, Nat.div_add_mod']

/-- Settles O29: `compareFlags_mem`, `exec_fl` on the category, and `aluDiv_mul_add_aluMod`. -/
theorem flagsAndDivisionLaws : Obligations.FlagsAndDivisionLaws := by
  refine ⟨fun a b s t h => ?_, fun i s t hi hcmp h => ?_, fun ra rb s t u hdiv hmod => ?_⟩
  · obtain ⟨ra, rb, rfl⟩ := execCmp_completes h
    exact compareFlags_mem _ _
  · rcases exec_fl h with hfl | rfl | ⟨a, b, rfl⟩
    · exact hfl
    · cases hi
    · exact absurd rfl (hcmp a b)
  · obtain ⟨_, _, ha, hb, rfl⟩ := dividingAlu_completes hdiv
    obtain ⟨_, _, ha', hb', rfl⟩ := dividingAlu_completes hmod
    cases regByte_injective ha
    cases regByte_injective hb
    cases regByte_injective ha'
    cases regByte_injective hb'
    simpa using aluDiv_mul_add_aluMod (s.reg ra) (s.reg rb)

end Sys2Proof.Machine
end

section
/-! Fatal errors (R76, R81, R167): every outcome is a next state or an error, and an error leaves `pc`, `out`, `servicing`
and `running` where the cycle found them. -/

namespace Sys2Proof.Machine

/-! ### Outcomes that end in place -/

/-- What no operation before a raise has touched: `pc`, `out`, `servicing` and `running`. -/
def SamePlace (s w : State) : Prop :=
  w.pc = s.pc ∧ w.out = s.out ∧ w.servicing = s.servicing ∧ w.running = s.running

/-- A next state, or an error whose wreck is where `s` is. -/
def EndsInPlace (s : State) (r : Result) : Prop :=
  (∃ t, r = .next t) ∨ ∃ e w, r = .fault (.raised e w) ∧ w.fault = some e ∧ SamePlace s w

theorem SamePlace.rfl {s : State} : SamePlace s s := ⟨Eq.refl _, Eq.refl _, Eq.refl _, Eq.refl _⟩

theorem endsInPlace_next (s t : State) : EndsInPlace s (.next t) := .inl ⟨t, rfl⟩

theorem endsInPlace_raise {s u : State} (e : FatalError) (h : SamePlace s u) : EndsInPlace s (raise e u) :=
  .inr ⟨e, u.setFault e, rfl, rfl, h⟩

theorem EndsInPlace.andThen {s : State} {r : Result} {k : State → Result} (hr : EndsInPlace s r)
    (hk : ∀ t, r = .next t → EndsInPlace s (k t)) : EndsInPlace s (andThen r k) := by
  rcases hr with ⟨t, rfl⟩ | ⟨e, w, rfl, hw⟩
  · exact hk t rfl
  · exact .inr ⟨e, w, rfl, hw⟩

/-! ### Operands and the stack -/

theorem endsInPlace_withReg {s : State} (a : Byte) {k : Reg → Result} (hk : ∀ r, EndsInPlace s (k r)) :
    EndsInPlace s (withReg a s k) := by
  unfold withReg
  split
  · exact hk _
  · exact endsInPlace_raise _ .rfl

theorem endsInPlace_withRegs {s : State} (a b : Byte) {k : Reg → Reg → Result} (hk : ∀ r q, EndsInPlace s (k r q)) :
    EndsInPlace s (withRegs a b s k) :=
  endsInPlace_withReg a fun r => endsInPlace_withReg b (hk r)

theorem endsInPlace_push {s u : State} (v : Byte) (h : SamePlace s u) : EndsInPlace s (push v u) := by
  by_cases hzero : u.sp = 0
  · rw [push_of_zero hzero]
    exact endsInPlace_raise _ h
  · rw [push_of_ne hzero]
    exact endsInPlace_next _ _

theorem samePlace_of_push {s u t : State} {v : Byte} (h : SamePlace s u) (hpush : push v u = .next t) :
    SamePlace s t := by
  obtain ⟨-, rfl⟩ := push_eq_next.mp hpush
  exact h

theorem endsInPlace_pop {s u : State} {k : Byte → State → Result} (h : SamePlace s u)
    (hk : ∀ v t, SamePlace s t → EndsInPlace s (k v t)) : EndsInPlace s (pop u k) := by
  by_cases hbyte : u.sp.toNat < 244
  · rw [pop_of_lt k hbyte]
    exact hk _ _ h
  · rw [pop_of_ge (Nat.not_lt.mp hbyte)]
    exact endsInPlace_raise _ h

theorem endsInPlace_pushAll {s u : State} (vs : List Byte) (h : SamePlace s u) : EndsInPlace s (pushAll vs u) := by
  induction vs generalizing u with
  | nil => exact endsInPlace_next _ _
  | cons v vs ih => exact (endsInPlace_push v h).andThen fun t ht => ih (samePlace_of_push h ht)

theorem endsInPlace_popRegs {s u : State} (rs : List Reg) (h : SamePlace s u) : EndsInPlace s (popRegs rs u) := by
  induction rs generalizing u with
  | nil => exact endsInPlace_next _ _
  | cons r rs ih => exact endsInPlace_pop h fun v t ht => ih ht

/-! ### Instructions, deliveries and cycles -/

theorem endsInPlace_binaryAlu (f : Byte → Byte → Byte) (a b : Byte) (s : State) :
    EndsInPlace s (binaryAlu f a b s) :=
  endsInPlace_withRegs a b fun _ _ => endsInPlace_next _ _

theorem endsInPlace_dividingAlu (f : Byte → Byte → Byte) (a b : Byte) (s : State) :
    EndsInPlace s (dividingAlu f a b s) := by
  refine endsInPlace_withRegs a b fun ra rb => ?_
  split
  · exact endsInPlace_raise _ .rfl
  · exact endsInPlace_next _ _

theorem endsInPlace_unaryAlu (f : Byte → Byte) (a : Byte) (s : State) : EndsInPlace s (unaryAlu f a s) :=
  endsInPlace_withReg a fun _ => endsInPlace_next _ _

theorem endsInPlace_jumpIf (taken : Bool) (a : Byte) (s : State) : EndsInPlace s (jumpIf taken a s) :=
  endsInPlace_withReg a fun _ => endsInPlace_next _ _

theorem endsInPlace_execCmp (a b : Byte) (s : State) : EndsInPlace s (execCmp a b s) :=
  endsInPlace_withRegs a b fun _ _ => endsInPlace_next _ _

theorem endsInPlace_execLdi (a b : Byte) (s : State) : EndsInPlace s (execLdi a b s) :=
  endsInPlace_withReg a fun _ => endsInPlace_next _ _

theorem endsInPlace_execLd (a b : Byte) (s : State) : EndsInPlace s (execLd a b s) :=
  endsInPlace_withRegs a b fun ra rb => by
    rw [memRead_byte]
    exact endsInPlace_next _ _

theorem endsInPlace_execSt (a b : Byte) (s : State) : EndsInPlace s (execSt a b s) :=
  endsInPlace_withRegs a b fun ra rb => by
    rw [memWrite_byte]
    exact endsInPlace_next _ _

theorem endsInPlace_execPush (a : Byte) (s : State) : EndsInPlace s (execPush a s) :=
  endsInPlace_withReg a fun _ => (endsInPlace_push _ .rfl).andThen fun _ _ => endsInPlace_next _ _

theorem endsInPlace_execPop (a : Byte) (s : State) : EndsInPlace s (execPop a s) :=
  endsInPlace_withReg a fun _ => endsInPlace_pop .rfl fun _ _ _ => endsInPlace_next _ _

theorem endsInPlace_execCall (a : Byte) (s : State) : EndsInPlace s (execCall a s) := by
  refine endsInPlace_withReg a fun ra => ?_
  split
  · exact endsInPlace_raise _ .rfl
  · exact (endsInPlace_push _ .rfl).andThen fun _ _ => endsInPlace_next _ _

theorem endsInPlace_execInt (a : Byte) (s : State) : EndsInPlace s (execInt a s) := by
  refine endsInPlace_withReg a fun ra => ?_
  simp only
  split
  · exact endsInPlace_next _ _
  · exact endsInPlace_raise _ .rfl

theorem endsInPlace_execPrn (a : Byte) (s : State) : EndsInPlace s (execPrn a s) :=
  endsInPlace_withReg a fun _ => endsInPlace_next _ _

theorem endsInPlace_execPra (a : Byte) (s : State) : EndsInPlace s (execPra a s) :=
  endsInPlace_withReg a fun _ => endsInPlace_next _ _

theorem endsInPlace_returnFromInterrupt (s : State) : EndsInPlace s (returnFromInterrupt s) := by
  refine (endsInPlace_popRegs returnRegs .rfl).andThen fun u hu => ?_
  rw [popRegs_eq_next hu]
  exact endsInPlace_pop .rfl fun f v hv => endsInPlace_pop hv fun _ _ _ => endsInPlace_next _ _

/-- Every instruction completes or raises in place (R76, R167). -/
theorem exec_endsInPlace (i : Instr) (s : State) : EndsInPlace s (exec i s) := by
  cases i with
  | add a b | sub a b | mul a b | and a b | or a b | xor a b | shl a b | shr a b =>
    exact endsInPlace_binaryAlu _ a b s
  | div a b | mod a b => exact endsInPlace_dividingAlu _ a b s
  | inc a | dec a | not a => exact endsInPlace_unaryAlu _ a s
  | cmp a b => exact endsInPlace_execCmp a b s
  | ldi a b => exact endsInPlace_execLdi a b s
  | ld a b => exact endsInPlace_execLd a b s
  | st a b => exact endsInPlace_execSt a b s
  | push a => exact endsInPlace_execPush a s
  | pop a => exact endsInPlace_execPop a s
  | jmp a | jeq a | jne a | jgt a | jge a | jlt a | jle a => exact endsInPlace_jumpIf _ a s
  | call a => exact endsInPlace_execCall a s
  | ret => exact endsInPlace_pop .rfl fun _ _ _ => endsInPlace_next _ _
  | int a => exact endsInPlace_execInt a s
  | iret => exact endsInPlace_returnFromInterrupt s
  | hlt | nop => exact endsInPlace_next _ _
  | prn a => exact endsInPlace_execPrn a s
  | pra a => exact endsInPlace_execPra a s

theorem deliver_endsInPlace (i : Line) (s : State) : EndsInPlace s (deliver i s) := by
  unfold deliver
  split
  · exact endsInPlace_raise _ .rfl
  · refine (endsInPlace_pushAll (u := clearPending i s) _ .rfl).andThen fun t _ => ?_
    rw [memRead_vector]
    exact endsInPlace_next _ _

theorem fetchExecute_endsInPlace (s : State) : EndsInPlace s (fetchExecute s) := by
  unfold fetchExecute
  split
  · exact exec_endsInPlace _ s
  · exact endsInPlace_raise _ .rfl

theorem samePlace_timerCheck (d : Bool) (s : State) : SamePlace s (timerCheck d s) := by
  obtain ⟨-, hservicing, hrunning, hout, -⟩ := timerCheck_keeps d s
  exact ⟨timerCheck_pc d s, hout, hservicing, hrunning⟩

/-- An outcome in place after the timer check is in place before it. -/
theorem EndsInPlace.of_timerCheck {d : Bool} {s : State} {r : Result} (h : EndsInPlace (timerCheck d s) r) :
    EndsInPlace s r := by
  obtain ⟨hpc, hout, hservicing, hrunning⟩ := samePlace_timerCheck d s
  rcases h with hnext | ⟨e, w, hr, hfault, hplace⟩
  · exact .inl hnext
  · rw [SamePlace, hpc, hout, hservicing, hrunning] at hplace
    exact .inr ⟨e, w, hr, hfault, hplace⟩

theorem cycle_endsInPlace (s : State) : EndsInPlace s (cycle s) := by
  cases hline : chosenLine s with
  | some i =>
    rw [cycle_of_chosen hline]
    exact (deliver_endsInPlace i _).of_timerCheck
  | none =>
    rw [cycle_of_none hline]
    exact (fetchExecute_endsInPlace _).of_timerCheck

/-! ### The statements -/

theorem EndsInPlace.next_or_raises {s : State} {r : Result} (h : EndsInPlace s r) :
    (∃ t, r = .next t) ∨ ∃ e, Raises r e := by
  rcases h with hnext | ⟨e, w, hr, -⟩
  · exact .inl hnext
  · exact .inr ⟨e, w, hr⟩

/-- The step of a machine without a fault completes or raises in place. -/
theorem step_endsInPlace {s : State} (h : s.fault = none) : EndsInPlace s (step s) := by
  cases hrun : s.running with
  | false =>
    rw [step_of_halted ⟨h, hrun⟩]
    exact endsInPlace_next _ _
  | true =>
    rw [step_of_active ⟨h, hrun⟩]
    exact (cycle_endsInPlace s).andThen fun _ _ => endsInPlace_next _ _

/-- Settles O9: by `step_endsInPlace` and `exec_endsInPlace`; a faulted machine answers its error. -/
theorem nothingIsRefused : Obligations.NothingIsRefused := by
  refine ⟨fun s => ?_, fun i s => (exec_endsInPlace i s).next_or_raises⟩
  cases hfault : s.fault with
  | none => exact (step_endsInPlace hfault).next_or_raises
  | some e => exact .inr ⟨e, s, step_of_fault hfault⟩

/-- Settles O16: the error ends in place, and a machine that was not running would not have raised. -/
theorem raiseEndsTheRun : Obligations.RaiseEndsTheRun := by
  intro s w e hnofault h
  have hrun : s.running = true := by
    by_contra hhalted
    cases (step_of_halted ⟨hnofault, Bool.eq_false_iff.mpr hhalted⟩).symm.trans h
  obtain ⟨t, ht⟩ | ⟨e', w', hr, hfault, hpc, hout, hservicing, hrunning⟩ := step_endsInPlace hnofault
  · cases ht.symm.trans h
  · cases hr.symm.trans h
    exact ⟨hfault, hpc, hout, hservicing, hrunning.trans hrun, hrun, step_of_fault hfault⟩

end Sys2Proof.Machine
end

section
/-! Interrupt lines and stacked contexts: the pending mask (R172), the stack law (R39), delivery (R175) and the return
from a handler (R142, R177), with room on the stack and without. -/

namespace Sys2Proof.Machine

/-! ### The pending mask -/

/-- Setting a line's bit in a byte. -/
theorem getLsbD_or_lineBit (x : Byte) (i : Line) (j : Nat) :
    (x ||| lineBit i).getLsbD j = (x.getLsbD j || decide (j = i.val)) := by
  rw [lineBit_eq_twoPow, BitVec.getLsbD_or, BitVec.getLsbD_twoPow]
  simp [i.isLt, eq_comm]

theorem complement_lineBit (i : Line) : 255 - lineBit i = ~~~ lineBit i := by
  revert i
  decide

/-- Clearing a line's bit in a byte. -/
theorem getLsbD_and_complement_lineBit (x : Byte) (i : Line) {j : Nat} (hj : j < 8) :
    (x &&& (255 - lineBit i)).getLsbD j = (x.getLsbD j && decide (j ≠ i.val)) := by
  rw [complement_lineBit, lineBit_eq_twoPow, BitVec.getLsbD_and, BitVec.getLsbD_not, BitVec.getLsbD_twoPow]
  simp [hj, eq_comm]

/-- Settles O47: on the bits of R6, and twice since `or` and `and` with the same byte are idempotent. -/
theorem pendingBitsAreSetAndCleared : Obligations.PendingBitsAreSetAndCleared := by
  refine fun s i => ⟨⟨_, rfl, fun j _ => getLsbD_or_lineBit (s.reg 6) i j⟩,
    ⟨_, rfl, fun j hj => getLsbD_and_complement_lineBit (s.reg 6) i hj⟩, ?_, ?_⟩
  · simp [setPending, BitVec.or_assoc]
  · simp [clearPending, BitVec.and_assoc]

theorem execInt_of_lt {r : Reg} {s : State} (h : (s.reg r).toNat < 8) :
    execInt (regByte r) s = .next ((setPending ⟨(s.reg r).toNat, h⟩ s).advance 2) := by
  rw [execInt, withReg_regByte]
  exact dif_pos h

theorem execInt_of_ge {r : Reg} {s : State} (h : 8 ≤ (s.reg r).toNat) :
    execInt (regByte r) s = raise (.undefined .interruptLine (s.reg r).toNat) s := by
  rw [execInt, withReg_regByte]
  exact dif_neg (Nat.not_lt.mpr h)

/-- Settles O38: by whether the register's byte is a line number. -/
theorem intSetsThePendingBit : Obligations.IntSetsThePendingBit :=
  fun s _ => ⟨fun h => ⟨_, execInt_of_lt h, fun j _ => getLsbD_or_lineBit (s.reg 6) ⟨_, h⟩ j⟩, execInt_of_ge⟩

/-! ### The stack law -/

theorem State.setReg_self (s : State) (r : Reg) : s.setReg r (s.reg r) = s := by
  simp [State.setReg, State.reg]

/-- An SP below the mark is far from the wrap. -/
theorem sp_succ {b : Byte} (h : b.toNat < 244) : (b + 1).toNat = b.toNat + 1 :=
  BitVec.toNat_add_of_lt (show b.toNat + 1 < 2 ^ 8 by omega)

/-- Pops return the bytes that stand at SP upward, below 0xF4. -/
theorem popsReturn_of_read {vs : List Byte} {s : State} (hroom : s.sp.toNat + vs.length ≤ 244)
    (hread : ∀ (k : Nat) (hk : k < vs.length), s.mem.read (s.sp.toNat + k) = vs[k]) :
    PopsReturn vs s (s.setReg 7 (s.sp + BitVec.ofNat 8 vs.length)) := by
  induction vs generalizing s with
  | nil =>
    rw [List.length_nil, BitVec.add_zero, State.sp_eq, State.setReg_self]
    rfl
  | cons v vs ih =>
    rw [List.length_cons] at hroom
    have hlt : s.sp.toNat < 244 := by omega
    have hsp : (s.setReg 7 (s.sp + 1)).sp.toNat = s.sp.toNat + 1 := by
      rw [State.setReg_sp, if_pos rfl, sp_succ hlt]
    have hv : s.mem.read s.sp.toNat = v := hread 0 (Nat.zero_lt_succ _)
    refine ⟨s.setReg 7 (s.sp + 1), fun k => by rw [pop_of_lt k hlt, hv], ?_⟩
    have hrest := ih (s := s.setReg 7 (s.sp + 1)) (by omega) fun k hk => by
      rw [hsp, Nat.add_right_comm, Nat.add_assoc]
      exact hread (k + 1) (Nat.succ_lt_succ hk)
    rw [State.setReg_setReg_same, State.setReg_sp, if_pos rfl, BitVec.add_assoc, BitVec.add_comm 1] at hrest
    rw [List.length_cons, BitVec.ofNat_add]
    exact hrest

/-- Bytes that stand below SP, the first one highest, pop in reverse from below them, back to SP. -/
theorem popsReturn_of_pushed {vs : List Byte} {s : State} (hfit : vs.length ≤ s.sp.toNat) (hmark : s.sp.toNat ≤ 244)
    (hread : ∀ (k : Nat) (hk : k < vs.length), s.mem.read (s.sp.toNat - 1 - k) = vs[k]) :
    PopsReturn vs.reverse (s.setReg 7 (s.sp - BitVec.ofNat 8 vs.length)) s := by
  have hlen : (BitVec.ofNat 8 vs.length).toNat = vs.length := Nat.mod_eq_of_lt (by omega)
  have hbelow : (s.sp - BitVec.ofNat 8 vs.length).toNat = s.sp.toNat - vs.length := by
    rw [BitVec.toNat_sub_of_le (by rwa [BitVec.le_def, hlen]), hlen]
  have hsp : (s.setReg 7 (s.sp - BitVec.ofNat 8 vs.length)).sp = s.sp - BitVec.ofNat 8 vs.length := by
    rw [State.setReg_sp, if_pos rfl]
  have hpops := popsReturn_of_read (vs := vs.reverse) (s := s.setReg 7 (s.sp - BitVec.ofNat 8 vs.length))
    (by rw [hsp, hbelow, List.length_reverse]; omega) fun k hk => by
      rw [List.length_reverse] at hk
      rw [hsp, hbelow, List.getElem_reverse, ← hread _ (by omega), State.setReg_mem]
      congr 1
      omega
  rwa [hsp, List.length_reverse, BitVec.sub_add_cancel, State.setReg_setReg_same, State.sp_eq, State.setReg_self]
    at hpops

/-- Settles O26: `pushAll_of_room` says what the pushes leave, and `popsReturn_of_pushed` reads it back. -/
theorem pushedBytesPopInReverse : Obligations.PushedBytesPopInReverse := by
  refine ⟨fun vs s hs hfit hmark => ?_, fun vs v s hsp hlen => ?_⟩
  · obtain ⟨m, hm, -, -, hread⟩ := pushAll_of_room vs s hfit
    exact ⟨_, hm, popsReturn_of_pushed (s := { s with mem := m }) hfit hmark (hread hs)⟩
  · obtain ⟨m, hm, -⟩ := pushAll_of_room vs s (by rw [State.sp_eq, hsp, hlen]; decide)
    refine ⟨_, hm, ?_⟩
    have hzero : (s.setReg 7 (s.sp - BitVec.ofNat 8 vs.length)).sp = 0 := by
      rw [State.setReg_sp, if_pos rfl, State.sp_eq, hsp, hlen]
      decide
    exact ⟨hzero, push_of_zero hzero⟩

end Sys2Proof.Machine
end

section
/-! Taking an interrupt and returning from a handler (R142, R175, R177), with room on the stack and without. -/

namespace Sys2Proof.Machine

/-! ### The frame of a delivery -/

theorem clearPending_reg_of_ne {r : Reg} (i : Line) (s : State) (h : r ≠ 6) : (clearPending i s).reg r = s.reg r := by
  rw [clearPending, State.setReg_reg, if_neg h]

theorem clearPending_sp (i : Line) (s : State) : (clearPending i s).sp = s.sp :=
  clearPending_reg_of_ne i s (by decide)

theorem clearPending_reg_isReg (i : Line) (s : State) :
    (clearPending i s).reg 6 = s.reg 6 &&& (255 - lineBit i) := by
  rw [clearPending, State.setReg_reg, if_pos rfl, State.is_eq]

theorem interruptFrame_length (s : State) : (interruptFrame s).length = 9 := rfl

/-- R0 to R6 stand in the frame after `pc` and FL. -/
theorem interruptFrame_reg (s : State) {r : Reg} (h : r ≠ 7) : (interruptFrame s)[r.val + 2]? = some (s.reg r) := by
  match r with
  | 0 | 1 | 2 | 3 | 4 | 5 | 6 => rfl
  | 7 => exact absurd rfl h

/-- The nine cells below the address `top` hold the frame of `s`, its first byte highest. -/
def FrameBelow (top : Nat) (s : State) (m : Memory) : Prop :=
  ∀ (k : Nat) (hk : k < (interruptFrame s).length), m.read (top - 1 - k) = (interruptFrame s)[k]

theorem FrameBelow.pc {top : Nat} {s : State} {m : Memory} (h : FrameBelow top s m) (hpc : s.pc < 256) :
    (m.read (top - 1)).toNat = s.pc := by
  rw [show m.read (top - 1) = BitVec.ofNat 8 s.pc from h 0 (Nat.zero_lt_succ 8)]
  exact Nat.mod_eq_of_lt hpc

theorem FrameBelow.fl {top : Nat} {s : State} {m : Memory} (h : FrameBelow top s m) : m.read (top - 2) = s.fl :=
  h 1 (Nat.succ_lt_succ (Nat.zero_lt_succ 7))

theorem FrameBelow.reg {top : Nat} {s : State} {m : Memory} (h : FrameBelow top s m) {r : Reg} (hr : r ≠ 7) :
    m.read (top - 3 - r.val) = s.reg r := by
  obtain ⟨hk, hframe⟩ := List.getElem?_eq_some_iff.mp (interruptFrame_reg s hr)
  rw [← hframe, ← h _ hk]
  congr 1
  omega

/-! ### Taking an interrupt -/

/-- The state after a delivery of line `i` from `s` that leaves the memory `m`. -/
def deliveredState (i : Line) (s : State) (m : Memory) : State :=
  { (clearPending i s).setReg 7 (s.sp - 9) with mem := m, pc := (m.read (248 + i.val)).toNat, servicing := true }

theorem deliveredState_reg (i : Line) (s : State) (m : Memory) (r : Reg) :
    (deliveredState i s m).reg r = if r = 7 then s.sp - 9 else (clearPending i s).reg r :=
  State.setReg_reg (clearPending i s) 7 r (s.sp - 9)

theorem deliver_of_pc_lt (i : Line) {s : State} (hpc : s.pc < 256) :
    deliver i s = andThen (pushAll (interruptFrame (clearPending i s)) (clearPending i s)) fun t =>
      .next ((t.setPc (t.mem.read (248 + i.val)).toNat).setServicing true) := by
  rw [deliver, if_neg (Nat.not_le.mpr hpc)]
  simp only [memRead_vector]

theorem deliver_of_pc_ge (i : Line) {s : State} (hpc : 256 ≤ s.pc) :
    deliver i s = raise (.undefined .pcNotByte s.pc) s := if_pos hpc

theorem deliver_of_room (i : Line) {s : State} (hpc : s.pc < 256) (hroom : 9 ≤ s.sp.toNat) :
    ∃ m : Memory, deliver i s = .next (deliveredState i s m) ∧ (s.mem.wf → m.wf) ∧
      (s.mem.wf → FrameBelow s.sp.toNat (clearPending i s) m) ∧
      ∀ addr, addr < s.sp.toNat - 9 ∨ s.sp.toNat ≤ addr → m.read addr = s.mem.read addr := by
  have hpush := pushAll_of_room (interruptFrame (clearPending i s)) (clearPending i s)
  rw [clearPending_sp] at hpush
  obtain ⟨m, hm, hwf, hsame, hread⟩ := hpush hroom
  refine ⟨m, ?_, hwf, hread, hsame⟩
  rw [deliver_of_pc_lt i hpc, hm]
  rfl

/-- A delivery that completes had a `pc` that is a byte, and room for the frame. -/
theorem room_of_deliver {i : Line} {s t : State} (h : deliver i s = .next t) : s.pc < 256 ∧ 9 ≤ s.sp.toNat := by
  have hpc : s.pc < 256 := Nat.not_le.mp fun hpc => raise_ne_next _ _ _ ((deliver_of_pc_ge i hpc).symm.trans h)
  rw [deliver_of_pc_lt i hpc] at h
  obtain ⟨u, hu, -⟩ := andThen_eq_next.mp h
  have hroom := pushAll_eq_next_room hu
  rw [clearPending_sp, interruptFrame_length] at hroom
  exact ⟨hpc, hroom⟩

/-- Nine below an SP with room for a frame. -/
theorem toNat_sub_nine {b : Byte} (h : 9 ≤ b.toNat) : (b - 9).toNat = b.toNat - 9 :=
  BitVec.toNat_sub_of_le (by rwa [BitVec.le_def])

/-- Settles O48: `deliver_of_room` with the frame read cell by cell. -/
theorem deliverSavesTheContext : Obligations.DeliverSavesTheContext := by
  refine fun s i hs => ⟨fun hpc hroom => ?_, deliver_of_pc_ge i⟩
  obtain ⟨m, hm, hwf, hframe, hsame⟩ := deliver_of_room i hpc hroom
  have hframe := hframe hs
  have hreg6 : (deliveredState i s m).reg 6 = (clearPending i s).reg 6 := by
    rw [deliveredState_reg, if_neg (by decide)]
  refine ⟨deliveredState i s m, hm, hwf hs, hframe.pc hpc, hframe.fl, fun r hr => ?_, ?_, fun j hj => ?_, ?_, rfl, rfl,
    rfl, rfl, rfl, ⟨rfl, rfl, rfl, rfl⟩, hsame⟩
  · have h6 : r ≠ 6 := fun h => by simp [h] at hr
    have h7 : r ≠ 7 := fun h => by simp [h] at hr
    rw [deliveredState_reg, if_neg h7, ← clearPending_reg_of_ne i s h6]
    exact ⟨hframe.reg h7, rfl⟩
  · rw [hreg6]
    exact hframe.reg (r := 6) (by decide)
  · rw [hreg6, clearPending_reg_isReg]
    exact getLsbD_and_complement_lineBit (s.reg 6) i hj
  · rw [deliveredState_reg, if_pos rfl]
    exact toNat_sub_nine hroom

/-! ### A delivery without room -/

theorem pushAll_append (vs ws : List Byte) (s : State) :
    pushAll (vs ++ ws) s = andThen (pushAll vs s) (pushAll ws) := by
  induction vs generalizing s with
  | nil => rfl
  | cons v vs ih =>
    show andThen (push v s) (pushAll (vs ++ ws)) = andThen (andThen (push v s) (pushAll vs)) (pushAll ws)
    cases push v s with
    | next t => exact ih t
    | fault f => rfl
    | refused f => rfl

/-- Pushing a list that does not fit: the bytes that have room are pushed, then the next one finds SP at 0. -/
theorem pushAll_of_no_room {vs : List Byte} {s : State} (h : s.sp.toNat < vs.length) :
    ∃ m : Memory, pushAll vs s = raise .stackOverflow { s.setReg 7 0 with mem := m } ∧
      (s.mem.wf → ∀ (k : Nat) (hk : k < vs.length), k < s.sp.toNat → m.read (s.sp.toNat - 1 - k) = vs[k]) := by
  have hlen : (vs.take s.sp.toNat).length = s.sp.toNat := List.length_take_of_le h.le
  obtain ⟨m, hm, -, -, hread⟩ := pushAll_of_room (vs.take s.sp.toNat) s hlen.le
  rw [hlen, BitVec.ofNat_toNat, BitVec.setWidth_eq, BitVec.sub_self] at hm
  refine ⟨m, ?_, fun hs k hk hfit => ?_⟩
  · have hzero : State.sp { s.setReg 7 0 with mem := m } = 0 := State.setReg_reg s 7 7 0
    conv_lhs => rw [← List.take_append_drop s.sp.toNat vs, pushAll_append, hm, andThen_next,
      List.drop_eq_getElem_cons h]
    exact congrArg (andThen · _) (push_of_zero hzero)
  · rw [hread hs k (by omega), List.getElem_take]

/-- Settles O49: `pushAll_of_no_room` on the frame, after the pending bit is cleared. -/
theorem deliverOverflowKeepsThePushesDone : Obligations.DeliverOverflowKeepsThePushesDone := by
  intro s i hs hpc hroom
  have hpush := pushAll_of_no_room (vs := interruptFrame (clearPending i s)) (s := clearPending i s)
  rw [clearPending_sp] at hpush
  obtain ⟨m, hm, hread⟩ := hpush hroom
  refine ⟨State.setFault { (clearPending i s).setReg 7 0 with mem := m } .stackOverflow, ?_,
    State.setReg_reg (clearPending i s) 7 7 0, State.setReg_reg (clearPending i s) 7 6 0, hread hs, rfl, rfl, rfl, rfl⟩
  rw [deliver_of_pc_lt i hpc, hm]
  rfl

end Sys2Proof.Machine
end

section
/-! The return from a handler (R142, R177): the nine pops where they are all there, and where SP reaches the mark before
the last. -/

namespace Sys2Proof.Machine

/-! ### The registers IRET pops -/

/-- Register `r` is popped by pop `6 - r` of the seven. -/
theorem returnRegs_getElem? {r : Reg} (h : r ≠ 7) : returnRegs[6 - r.val]? = some r := by
  match r with
  | 0 | 1 | 2 | 3 | 4 | 5 | 6 => rfl
  | 7 => exact absurd rfl h

/-- What holds of the register and the address of every pop holds of every register but SP, at `sp + 6 - r`. -/
theorem of_returnRegs {P : Reg → Nat → Prop} {sp : Nat}
    (h : ∀ (k : Nat) (hk : k < returnRegs.length), P returnRegs[k] (sp + k)) {r : Reg} (hr : r ≠ 7) :
    P r (sp + 6 - r.val) := by
  obtain ⟨hk, hget⟩ := List.getElem?_eq_some_iff.mp (returnRegs_getElem? hr)
  have hr6 : r.val ≤ 6 := by
    have : r.val ≠ 7 := fun h => hr (Fin.ext h)
    omega
  have := h _ hk
  rwa [hget, ← Nat.add_sub_assoc hr6] at this

theorem popRegs_returnRegs_of_room {s : State} (h : s.sp.toNat ≤ 237) :
    ∃ t, popRegs returnRegs s = .next t ∧ t = { s with regs := t.regs } ∧ t.sp.toNat = s.sp.toNat + 7 ∧
      ∀ r : Reg, r ≠ 7 → t.reg r = s.mem.read (s.sp.toNat + 6 - r.val) := by
  obtain ⟨t, ht, hsp, hread, -⟩ := popRegs_of_room returnRegs s (by decide) (by decide) (Nat.add_le_add_right h 7)
  exact ⟨t, ht, popRegs_eq_next ht, hsp, fun _ => of_returnRegs (P := fun r addr => t.reg r = s.mem.read addr) hread⟩

theorem setReg_setReg_sp {q : Reg} (hq : 7 ≠ q) (s : State) (x v : Byte) :
    ((s.setReg 7 x).setReg q v).sp = x := by
  rw [State.setReg_sp, if_neg hq, State.setReg_sp, if_pos rfl]

theorem setReg_setReg_reg_of_ne {r q : Reg} (hr7 : r ≠ 7) (hrq : r ≠ q) (s : State) (x v : Byte) :
    ((s.setReg 7 x).setReg q v).reg r = s.reg r := by
  rw [State.setReg_reg, if_neg hrq, State.setReg_reg, if_neg hr7]

/-- The pops of distinct registers other than SP, where SP reaches the mark before the last: the pops before that are
done. -/
theorem popRegs_of_no_room {rs : List Reg} {s : State} (hnd : rs.Nodup) (h7 : 7 ∉ rs)
    (h : max 244 s.sp.toNat < s.sp.toNat + rs.length) :
    ∃ w, popRegs rs s = raise .stackUnderflow w ∧ w = { s with regs := w.regs } ∧ w.sp.toNat = max 244 s.sp.toNat ∧
      (∀ (k : Nat) (hk : k < rs.length),
        w.reg rs[k] = if s.sp.toNat + k < 244 then s.mem.read (s.sp.toNat + k) else s.reg rs[k]) ∧
      ∀ r, r ∉ rs → r ≠ 7 → w.reg r = s.reg r := by
  induction rs generalizing s with
  | nil => exact absurd h (Nat.not_lt.mpr (Nat.le_max_right _ _))
  | cons q rs ih =>
    obtain ⟨hqr, hnd⟩ := List.nodup_cons.mp hnd
    obtain ⟨hq7, h7⟩ := not_or.mp (mt List.mem_cons.mpr h7)
    rw [List.length_cons] at h
    by_cases hlt : s.sp.toNat < 244
    · have hsp : ((s.setReg 7 (s.sp + 1)).setReg q (s.mem.read s.sp.toNat)).sp.toNat = s.sp.toNat + 1 := by
        rw [setReg_setReg_sp hq7, sp_succ hlt]
      obtain ⟨w, hw, hframe, hwsp, hread, hrest⟩ := ih hnd h7 (by rw [hsp]; omega)
      rw [hsp] at hwsp hread
      refine ⟨w, by rw [popRegs, pop_of_lt _ hlt]; exact hw, hframe, by omega, fun k hk => ?_, fun r hr hr7 => ?_⟩
      · cases k with
        | zero => simpa [hlt] using hrest q hqr (Ne.symm hq7)
        | succ k =>
          have hk : k < rs.length := Nat.lt_of_succ_lt_succ hk
          have hmem : rs[k] ∈ rs := List.getElem_mem hk
          rw [List.getElem_cons_succ, hread k hk, State.setReg_mem, State.setReg_mem,
            setReg_setReg_reg_of_ne (ne_of_mem_of_not_mem hmem h7) (ne_of_mem_of_not_mem hmem hqr), Nat.add_assoc,
            Nat.add_comm 1]
      · obtain ⟨hrq, hr⟩ := not_or.mp (mt List.mem_cons.mpr hr)
        rw [hrest r hr hr7, setReg_setReg_reg_of_ne hr7 hrq]
    · have hge : 244 ≤ s.sp.toNat := Nat.not_lt.mp hlt
      exact ⟨s, pop_of_ge hge, rfl, by omega, fun k _ => by rw [if_neg (by omega)], fun _ _ _ => rfl⟩

theorem popRegs_returnRegs_of_no_room {s : State} (h : 237 < s.sp.toNat) :
    ∃ w, popRegs returnRegs s = raise .stackUnderflow w ∧ w = { s with regs := w.regs } ∧
      w.sp.toNat = max 244 s.sp.toNat ∧ ∀ r : Reg, r ≠ 7 → w.reg r =
        if s.sp.toNat + 6 - r.val < 244 then s.mem.read (s.sp.toNat + 6 - r.val) else s.reg r := by
  have hroom : max 244 s.sp.toNat < s.sp.toNat + returnRegs.length := by
    rw [show returnRegs.length = 7 from rfl]
    omega
  obtain ⟨w, hw, hframe, hsp, hread, -⟩ := popRegs_of_no_room (rs := returnRegs) (by decide) (by decide) hroom
  exact ⟨w, hw, hframe, hsp, fun _ => of_returnRegs
    (P := fun r addr => w.reg r = if addr < 244 then s.mem.read addr else s.reg r) hread⟩

/-! ### The nine pops -/

theorem State.setReg_sp_same (s : State) (v : Byte) : (s.setReg 7 v).sp = v := by
  rw [State.setReg_sp, if_pos rfl]

/-- A pop from the address `n` below the mark. -/
theorem pop_at {s : State} {n : Nat} (k : Byte → State → Result) (hsp : s.sp.toNat = n) (h : n < 244) :
    pop s k = k (s.mem.read n) (s.setReg 7 (s.sp + 1)) := by
  subst hsp
  exact pop_of_lt k h

/-- The state once IRET has popped into FL as well, its eighth pop. -/
def flPopped (s : State) : State := (s.setReg 7 (s.sp + 1)).setFl (s.mem.read s.sp.toNat)

theorem flPopped_sp (s : State) : (flPopped s).sp = s.sp + 1 := State.setReg_sp_same s _

theorem flPopped_reg {r : Reg} (h : r ≠ 7) (s : State) : (flPopped s).reg r = s.reg r := by
  rw [flPopped, State.setFl_reg, State.setReg_reg, if_neg h]

theorem returnFromInterrupt_of_fl {s u : State} (hu : popRegs returnRegs s = .next u) (h : u.sp.toNat < 244) :
    returnFromInterrupt s =
      pop (flPopped u) fun p v => .next ((v.setPc p.toNat).setServicing false) := by
  rw [returnFromInterrupt, hu, andThen_next, pop_of_lt _ h]
  rfl

/-- IRET with nine bytes below the mark restores them all. -/
theorem returnFromInterrupt_of_room {s : State} (h : s.sp.toNat ≤ 235) :
    ∃ t, returnFromInterrupt s = .next t ∧
      t = { s with
        regs := t.regs, fl := s.mem.read (s.sp.toNat + 7), pc := (s.mem.read (s.sp.toNat + 8)).toNat,
        servicing := false } ∧
      t.sp.toNat = s.sp.toNat + 9 ∧ ∀ r : Reg, r ≠ 7 → t.reg r = s.mem.read (s.sp.toNat + 6 - r.val) := by
  obtain ⟨u, hu, hframe, hsp, hread⟩ := popRegs_returnRegs_of_room (s := s) (by omega)
  obtain ⟨regs, rfl⟩ : ∃ regs, u = { s with regs := regs } := ⟨_, hframe⟩
  have hsp' : (flPopped { s with regs := regs }).sp.toNat = s.sp.toNat + 8 := by
    rw [flPopped_sp, sp_succ (by omega), hsp]
  refine ⟨_, (returnFromInterrupt_of_fl hu (by omega)).trans (pop_at _ hsp' (by omega)), ?_, ?_, fun r hr => ?_⟩
  · rw [flPopped, hsp]
    rfl
  · rw [State.setServicing_sp, State.setPc_sp, State.setReg_sp_same, sp_succ (by omega), hsp']
  · rw [State.setServicing_reg, State.setPc_reg, State.setReg_reg, if_neg hr, flPopped_reg hr, hread r hr]

/-- Settles O39: `returnFromInterrupt_of_room`. -/
theorem iretRestoresTheContext : Obligations.IretRestoresTheContext := by
  intro s h
  obtain ⟨t, ht, hframe, hsp, hread⟩ := returnFromInterrupt_of_room h
  obtain ⟨regs, rfl⟩ : ∃ regs, t = { s with
      regs := regs, fl := s.mem.read (s.sp.toNat + 7), pc := (s.mem.read (s.sp.toNat + 8)).toNat,
      servicing := false } := ⟨_, hframe⟩
  exact ⟨_, ht, hread, hsp, rfl, rfl, rfl, rfl, rfl, rfl, rfl, rfl, rfl, rfl⟩

/-- IRET without nine bytes below the mark raises where SP reaches it, with the pops before done. -/
theorem returnFromInterrupt_of_no_room {s : State} (h : 235 < s.sp.toNat) :
    ∃ w, returnFromInterrupt s = raise .stackUnderflow w ∧
      w = { s with
        regs := w.regs, fl := if s.sp.toNat + 7 < 244 then s.mem.read (s.sp.toNat + 7) else s.fl } ∧
      w.sp.toNat = max 244 s.sp.toNat ∧ ∀ r : Reg, r ≠ 7 → w.reg r =
        if s.sp.toNat + 6 - r.val < 244 then s.mem.read (s.sp.toNat + 6 - r.val) else s.reg r := by
  by_cases hregs : 237 < s.sp.toNat
  · obtain ⟨w, hw, hframe, hsp, hread⟩ := popRegs_returnRegs_of_no_room hregs
    refine ⟨w, by rw [returnFromInterrupt, hw, andThen_raise], ?_, hsp, hread⟩
    rw [if_neg (by omega)]
    exact hframe
  obtain ⟨u, hu, hframe, hsp, hread⟩ := popRegs_returnRegs_of_room (s := s) (by omega)
  obtain ⟨regs, rfl⟩ : ∃ regs, u = { s with regs := regs } := ⟨_, hframe⟩
  by_cases hfl : s.sp.toNat = 237
  · refine ⟨_, by rw [returnFromInterrupt, hu, andThen_next, pop_of_ge (by omega)], ?_, by omega, fun r hr => ?_⟩
    · rw [if_neg (by omega)]
    · rw [if_pos (by omega), hread r hr]
  · have hsp' : (flPopped { s with regs := regs }).sp.toNat = 244 := by
      rw [flPopped_sp, sp_succ (by omega), hsp]
      omega
    refine ⟨flPopped { s with regs := regs }, ?_, ?_, by omega, fun r hr => ?_⟩
    · rw [returnFromInterrupt_of_fl hu (by omega), pop_of_ge (by omega)]
    · rw [if_pos (by omega), flPopped, hsp]
      rfl
    · rw [if_pos (by omega), flPopped_reg hr, hread r hr]

/-- Settles O40: `returnFromInterrupt_of_no_room`, with the fault set. -/
theorem iretUnderflowKeepsThePopsDone : Obligations.IretUnderflowKeepsThePopsDone := by
  intro s h
  obtain ⟨w, hw, hframe, hsp, hread⟩ := returnFromInterrupt_of_no_room h
  obtain ⟨regs, rfl⟩ : ∃ regs, w = { s with
      regs := regs, fl := if s.sp.toNat + 7 < 244 then s.mem.read (s.sp.toNat + 7) else s.fl } := ⟨_, hframe⟩
  exact ⟨_, hw, rfl, hsp, hread, rfl, rfl, rfl, rfl, rfl⟩

/-! ### Return from a handler that left the frame alone -/

theorem State.regs_ext {s t : State} (h : ∀ r, s.reg r = t.reg r) : s.regs = t.regs :=
  Vector.ext fun i hi => h ⟨i, hi⟩

/-- IRET with SP nine below that of `c` and the frame of `c` between gives back `c`'s registers, FL and `pc`. -/
theorem returnFromInterrupt_of_frame {c u : State} (hpc : c.pc < 256) (hroom : 9 ≤ c.sp.toNat)
    (hmark : c.sp.toNat ≤ 244) (hsp : u.sp.toNat = c.sp.toNat - 9) (hframe : FrameBelow c.sp.toNat c u.mem) :
    returnFromInterrupt u = .next { u with regs := c.regs, fl := c.fl, pc := c.pc, servicing := false } := by
  obtain ⟨t, ht, hrest, htsp, hread⟩ := returnFromInterrupt_of_room (s := u) (by omega)
  have hregs : t.regs = c.regs := State.regs_ext fun r => by
    by_cases hr : r = 7
    · subst hr
      exact BitVec.eq_of_toNat_eq (show t.sp.toNat = c.sp.toNat by omega)
    · rw [hread r hr, ← hframe.reg hr]
      congr 1
      omega
  have hfl : u.mem.read (u.sp.toNat + 7) = c.fl := by
    rw [← hframe.fl]
    congr 1
    omega
  have hpc' : (u.mem.read (u.sp.toNat + 8)).toNat = c.pc := by
    rw [← hframe.pc hpc]
    congr 2
    omega
  rw [ht, hrest, hregs, hfl, hpc']

/-- Settles O50: the frame that `deliver_of_room` says was saved is still there. -/
theorem handlerReturnRestoresTheContext : Obligations.HandlerReturnRestoresTheContext := by
  intro s t u i hs hmark hdeliver hsp hkept
  obtain ⟨hpc, hroom⟩ := room_of_deliver hdeliver
  obtain ⟨m, hm, -, hframe, -⟩ := deliver_of_room i hpc hroom
  obtain rfl := Host.Outcome.next.inj (hdeliver.symm.trans hm)
  have hdown : ((deliveredState i s m).reg 7).toNat = s.sp.toNat - 9 := by
    rw [deliveredState_reg, if_pos rfl, toNat_sub_nine hroom]
  rw [hdown] at hkept
  have hframe' : FrameBelow (clearPending i s).sp.toNat (clearPending i s) u.mem := fun k hk => by
    have hk9 : k < 9 := hk
    rw [clearPending_sp, ← hframe hs k hk]
    exact hkept _ (by omega) (show s.sp.toNat - 1 - k < s.sp.toNat by omega)
  exact returnFromInterrupt_of_frame hpc (by rwa [clearPending_sp]) (by rwa [clearPending_sp])
    (by rw [clearPending_sp, State.sp_eq, hsp, hdown]) hframe'

end Sys2Proof.Machine
end

section
/-! The event sources (R70, R178, R179, R82): the timer check, key events, and the environment steps of a cycle
boundary. -/

namespace Sys2Proof.Machine

/-! ### The timer check and the key event -/

theorem State.enabled_timerLine (s : State) : s.enabled Config.timerLine = (s.reg 5).getLsbD 0 :=
  s.enabled_eq_getLsbD 0

theorem State.enabled_keyLine (s : State) : s.enabled Config.keyLine = (s.reg 5).getLsbD 1 :=
  s.enabled_eq_getLsbD 1

theorem State.pending_keyLine (s : State) : s.pending Config.keyLine = (s.reg 6).getLsbD 1 :=
  s.pending_eq_getLsbD 1

theorem timerCheck_of_raised {s : State} (htick : s.tick ≠ s.lastTick)
    (h : (s.enabled Config.timerLine && !s.servicing) = true) :
    timerCheck Config.tickDeferred s = setPending Config.timerLine s.observeTick := by
  rw [timerCheck, if_neg htick, if_pos h]

theorem timerCheck_of_dropped {s : State} (htick : s.tick ≠ s.lastTick)
    (h : (s.enabled Config.timerLine && !s.servicing) = false) :
    timerCheck Config.tickDeferred s = s.observeTick := by
  rw [timerCheck, if_neg htick, h]
  rfl

/-- Settles O51: by whether the tick has advanced, and whether line 0 is enabled in Normal. -/
theorem timerCheckRaisesLineZero : Obligations.TimerCheckRaisesLineZero := by
  refine fun s => ⟨timerCheck_of_no_advance _, fun htick henabled hnormal => timerCheck_of_raised htick ?_,
    fun htick hdropped => timerCheck_of_dropped htick ?_⟩ <;> rw [State.enabled_timerLine]
  · rw [henabled, hnormal, Bool.not_false, Bool.and_true]
  · rcases hdropped with h | h
    · rw [h, Bool.false_and]
    · rw [h, Bool.not_true, Bool.and_false]

theorem keyEvent_of_accepted (code : Byte) {s : State}
    (h : (s.enabled Config.keyLine && !s.pending Config.keyLine) = true) :
    keyEvent code s = (setPending Config.keyLine s).setMem Config.keyAddr code := if_pos h

theorem keyEvent_of_dropped (code : Byte) {s : State}
    (h : (s.enabled Config.keyLine && !s.pending Config.keyLine) = false) : keyEvent code s = s :=
  if_neg (Bool.eq_false_iff.mp h)

/-- Settles O52: by whether line 1 is enabled and not pending. -/
theorem keyEventIsAcceptedOrDropped : Obligations.KeyEventIsAcceptedOrDropped := by
  refine fun s code hs => ⟨fun henabled hclear => ⟨s.mem.write 0xF4 code, keyEvent_of_accepted code ?_,
    Memory.write_changes_one_cell hs (by decide) code⟩, fun hdropped => keyEvent_of_dropped code ?_⟩ <;>
    rw [State.enabled_keyLine, State.pending_keyLine]
  · rw [henabled, hclear, Bool.not_false, Bool.and_true]
  · rcases hdropped with h | h
    · rw [h, Bool.false_and]
    · rw [h, Bool.not_true, Bool.and_false]

/-! ### The steps of a cycle boundary -/

/-- By how much a step of the environment advances the tick input (R70). -/
def EnvStep.ticks : EnvStep → Nat
  | .advanceTick k => k
  | .keyEvent _ => 0
  | .stopRequest => 0

/-- What one step of the environment does to the tick input, `running`, the registers and memory. -/
theorem envStep_effect (e : EnvStep) (s : State) :
    (envStep e s).tick = s.tick + e.ticks ∧ ((envStep e s).running = false ↔ s.running = false ∨ e = .stopRequest) ∧
      SameRegsExcept [6] s (envStep e s) ∧ SameMemoryExcept 0xF4 s (envStep e s) := by
  cases e with
  | advanceTick k => exact ⟨rfl, by simp [envStep], fun _ _ => rfl, fun _ _ => rfl⟩
  | stopRequest => exact ⟨rfl, by simp [envStep, stopRequest], fun _ _ => rfl, fun _ _ => rfl⟩
  | keyEvent code =>
    show (keyEvent code s).tick = _ ∧ ((keyEvent code s).running = false ↔ _) ∧ SameRegsExcept [6] s (keyEvent code s) ∧
      SameMemoryExcept 0xF4 s (keyEvent code s)
    rcases keyEvent_cases code s with h | h <;> rw [h]
    · exact ⟨rfl, by simp, fun _ _ => rfl, fun _ _ => rfl⟩
    · exact ⟨rfl, by simp [setPending], sameRegsExcept_setReg s 6 _, sameMemoryExcept_setMem s 0xF4 code⟩

theorem SameRegsExcept.trans {rs : List Reg} {s t u : State} (h : SameRegsExcept rs s t) (h' : SameRegsExcept rs t u) :
    SameRegsExcept rs s u := fun r hr => (h' r hr).trans (h r hr)

theorem SameMemoryExcept.trans {addr : Nat} {s t u : State} (h : SameMemoryExcept addr s t)
    (h' : SameMemoryExcept addr t u) : SameMemoryExcept addr s u := fun b hb => (h' b hb).trans (h b hb)

/-- The same for the steps of one boundary, with the advances summed. -/
theorem envSteps_effect (es : List EnvStep) (s : State) :
    (envSteps es s).tick = s.tick + (es.map EnvStep.ticks).sum ∧
      ((envSteps es s).running = false ↔ s.running = false ∨ .stopRequest ∈ es) ∧
      (envSteps es s).schedule = s.schedule ∧
      SameRegsExcept [6] s (envSteps es s) ∧ SameMemoryExcept 0xF4 s (envSteps es s) := by
  induction es generalizing s with
  | nil => exact ⟨rfl, by simp [envSteps], rfl, fun _ _ => rfl, fun _ _ => rfl⟩
  | cons e es ih =>
    obtain ⟨htick, hrun, hregs, hmem⟩ := envStep_effect e s
    obtain ⟨htick', hrun', hschedule', hregs', hmem'⟩ := ih (envStep e s)
    rw [envSteps]
    refine ⟨?_, ?_, hschedule'.trans (envStep_schedule e s), hregs.trans hregs', hmem.trans hmem'⟩
    · rw [htick', htick, List.map_cons, List.sum_cons, Nat.add_assoc]
    · rw [hrun', hrun, List.mem_cons, or_assoc, eq_comm (a := e)]

/-- Settles O55: the boundary applies `envSteps`, whose effect is `envSteps_effect` and whose frame `boundary_keeps`. -/
theorem boundaryAppliesTheEnvironmentSteps : Obligations.BoundaryAppliesTheEnvironmentSteps := by
  refine ⟨fun s t hs hcycle => ?_, fun t => boundary_of_not_running, fun t es rest hrun hschedule => ?_,
    fun u k code => ⟨rfl, rfl, rfl⟩⟩
  · rw [step_of_active hs, hcycle, andThen_next]
  obtain ⟨hpc, hfl, hservicing, hout, hfault, hlast, -⟩ := boundary_keeps t
  have hboundary := boundary_of_schedule hrun hschedule
  obtain ⟨htick, hstop, hrest, hregs, hmem⟩ := envSteps_effect es (t.setSchedule rest)
  rw [← hboundary] at htick hstop hrest hregs hmem
  refine ⟨hboundary.trans (envSteps_eq_foldl es _), ?_, ?_, hrest, hpc, hfl, hservicing, hout, hlast, hfault, hregs,
    hmem⟩
  · rw [htick, State.setSchedule_tick]
    exact congrArg (t.tick + List.sum ·) (List.map_congr_left fun e _ => by cases e <;> rfl)
  · rw [hstop, State.setSchedule_running, hrun]
    simp

/-- A cycle that completes does not touch the fault. -/
theorem cycle_fault {s t : State} (h : cycle s = .next t) : t.fault = s.fault := by
  obtain ⟨-, -, -, -, htimer, -⟩ := timerCheck_keeps Config.tickDeferred s
  rcases cycle_cases h with ⟨i, -, hdeliver⟩ | ⟨-, i, -, hexec⟩
  · obtain ⟨⟨-, hfault, -⟩, -⟩ := deliver_keeps hdeliver
    rw [hfault, htimer]
  · obtain ⟨⟨-, hfault, -⟩, -⟩ := exec_keeps hexec
    rw [hfault, htimer]

/-- Settles O53: with a stop request among the steps the boundary leaves `running` false, and without one it does not. -/
theorem stopRequestHaltsAtTheBoundary : Obligations.StopRequestHaltsAtTheBoundary := by
  intro s t es rest hs hcycle hschedule hrun
  obtain ⟨hstepBoundary, -, hboundary, -⟩ := boundaryAppliesTheEnvironmentSteps
  have hstep := hstepBoundary s t hs hcycle
  obtain ⟨hfold, -, hstop, hrest, hpc, hfl, hservicing, hout, -, hfault, -⟩ := hboundary t es rest hrun hschedule
  have hnofault : (boundary t).fault = none := by rw [hfault, cycle_fault hcycle, hs.1]
  refine ⟨fun hmem => ?_, ?_, fun hmem => ⟨boundary t, hstep, hnofault, Bool.eq_true_of_not_eq_false (mt hstop.mp hmem)⟩⟩
  · have hhalted : (boundary t).Halted := ⟨hnofault, hstop.mpr hmem⟩
    exact ⟨boundary t, hstep, hhalted, hrest, hpc, hfl, hservicing, hout, step_of_halted hhalted⟩
  · rintro rfl
    exact hstep.trans (congrArg Host.Outcome.next hfold)

end Sys2Proof.Machine
end
